-- ==== Sys2Proof/Word.lean ====
section
/-! DEFINITION. The unit of the engine's two buffers (spec/00_scope.md R5): a byte is 8 bits, every value is unsigned. -/

namespace Sys2Proof

/-- One byte of a buffer (R5). -/
abbrev Byte := BitVec 8

end Sys2Proof
end

