-- ==== Sys2Proof/Config.lean ====
section
/-! DEFINITION. The implementation parameters of spec/00_scope.md R4: the configuration record `Cfg`, with the byte order
and the layout of the captured record (spec/30_encoding.md R51 to R54) among its fields, and the constants nothing can change. -/

namespace Sys2Proof

/-- `REC_ENDIAN`: the byte order of the multi-byte scalars of the captured record (R4, R34). -/
inductive Endian where
  | little
  | big
  deriving DecidableEq, Repr

/-- `REC_LAYOUT` (R4): where each field of the captured record lies. The defaults are the table R51, the flags byte R52, the
pair word R53 and the hop block R54. The range of an offset is the one that keeps the field inside the 128 bytes of `REC`
(inside the 32 bytes of a hop block for the offsets relative to it), so no layout reads outside the buffer. -/
structure RecLayout where
  srcIp : Fin 125 := 0
  dstIp : Fin 125 := 4
  srcPort : Fin 127 := 8
  dstPort : Fin 127 := 10
  ipVer : Fin 128 := 12
  l4Proto : Fin 128 := 13
  flags : Fin 128 := 14
  intLength : Fin 128 := 15
  insBitmap : Fin 127 := 16
  /-- `HB(0)`, the base of hop 0's block (R54). -/
  hop0Base : Fin 97 := 20
  /-- `HB(1)`, the base of hop 1's block (R54). -/
  hop1Base : Fin 97 := 52
  switchId : Fin 29 := 0
  ingressPort : Fin 31 := 4
  egressPort : Fin 31 := 6
  hopLatency : Fin 29 := 8
  qPair : Fin 29 := 12
  ingressTs : Fin 29 := 16
  egressTs : Fin 29 := 20
  qcPair : Fin 29 := 24
  txUtil : Fin 29 := 28
  /-- Least significant bit of the 5-bit `ins_cnt` in the flags byte (R52). -/
  insCntBit : Fin 4 := 3
  intValidBit : Fin 8 := 2
  hop0ValidBit : Fin 8 := 1
  hop1ValidBit : Fin 8 := 0
  /-- Least significant bit of the 8-bit id in a pair word (R53). -/
  pairIdBit : Fin 25 := 24
  /-- Least significant bit of the 24-bit value in a pair word (R53). -/
  pairValBit : Fin 9 := 0
  deriving DecidableEq, Repr

/-- The configuration record (R4, R20): an input the integrator holds stable, written by no operation. `CFG_DST_ADDR` has
no default in the spec, so a value must be supplied for it. -/
structure Cfg where
  /-- `REC_ENDIAN`, fixed before the first record and never switched at run time (R34, R231; log 23). -/
  recEndian : Endian := .little
  layout : RecLayout := {}
  /-- `CFG_DST_ADDR`, no default (R4, R231). -/
  dstAddr : BitVec 32
  dstPort : BitVec 16 := 32766
  srcAddr : BitVec 32 := 0
  srcPort : BitVec 16 := 0
  outerTtl : BitVec 8 := 64
  innerTtl : BitVec 8 := 64
  /-- `CFG_DST_MAC`, the address a:b:c:d:e:f as the number a ++ b ++ c ++ d ++ e ++ f (R156). -/
  dstMac : BitVec 48 := 0x000000000002
  srcMac : BitVec 48 := 0x000000000001
  hwId : BitVec 6 := 0
  /-- `TR_VER` (R4). -/
  trVer : BitVec 4 := 0
  /-- `TR_NPROTO_ETH` (R4). -/
  trNproto : BitVec 4 := 0
  deriving DecidableEq, Repr

/-- `REC_LEN`: the length of a captured record in bytes (R4). -/
def recLen : Nat := 128

/-- `OUT_CAP`: the capacity of the output buffer in bytes (R4, R33). -/
def outCap : Nat := 173

/-- `TR_RESERVED16` (R4, R63). -/
def trReserved16 : BitVec 16 := 0x2000

/-- `PAYLOAD`: the ASCII bytes of "Hello World" (R4, R71). -/
def payload : List Byte :=
  [0x48, 0x65, 0x6C, 0x6C, 0x6F, 0x20, 0x57, 0x6F, 0x72, 0x6C, 0x64]

end Sys2Proof
end

