-- ==== Sys2Proof/Machine/Bytes.lean ====
section
/-! DEFINITION. Numbers from bytes and bytes from numbers (spec/00_scope.md R6): little-endian and big-endian reading, `RecU`,
and the big-endian image that `MemWrite` and `append_n` write. -/

namespace Sys2Proof

/-- The number of a byte list, lowest address least significant: `sum B[i] * 256^i` (R6, `RecU` little). -/
def leNat : List Byte → Nat
  | [] => 0
  | b :: bs => b.toNat + 256 * leNat bs

/-- The number of a byte list, lowest address most significant: `sum B[i] * 256^(n-1-i)` (R6, `RecU` big). -/
def beNat : List Byte → Nat
  | [] => 0
  | b :: bs => b.toNat * 256 ^ bs.length + beNat bs

/-- The number of a byte list under a byte order. -/
def bytesNat (e : Endian) (bs : List Byte) : Nat :=
  match e with
  | .little => leNat bs
  | .big => beNat bs

/-- The `n`-byte big-endian image of a number, most significant byte first (R6 `MemWrite`, R130 `append_n`). -/
def beBytes : Nat → Nat → List Byte
  | 0, _ => []
  | n + 1, v => BitVec.ofNat 8 (v / 256 ^ n) :: beBytes n v

/-- The `n`-byte little-endian image of a number. -/
def leBytes : Nat → Nat → List Byte
  | 0, _ => []
  | n + 1, v => BitVec.ofNat 8 v :: leBytes n (v / 256)

/-- The `n`-byte image of a number under a byte order: what `bytesNat` reads back. -/
def natBytes (e : Endian) (n v : Nat) : List Byte :=
  match e with
  | .little => leBytes n v
  | .big => beBytes n v

/-- `MemRead(REC:a, n)` (R6): bytes `a .. a+n-1` of the record's bytes. -/
def memRead (bs : List Byte) (a n : Nat) : List Byte :=
  (bs.drop a).take n

/-- `RecU(a, n)` (R6): the unsigned number held in `MemRead(REC:a, n)` under `REC_ENDIAN`. -/
def recU (e : Endian) (bs : List Byte) (a n : Nat) : Nat :=
  bytesNat e (memRead bs a n)

end Sys2Proof
end

