-- ==== Sys2Proof/Syntax.lean ====
section
/-! DEFINITION. The engine's operations, one constructor for each of the 21 rows of spec/opcode_table.json (30_encoding.md
R76), with the operands that the row's rule gives it. -/

namespace Sys2Proof

/-- The index `k` of `rec.hop[k]` (R12). -/
inductive HopIndex where
  | hop0
  | hop1
  deriving DecidableEq, Repr

/-- The operations. The first eight are selected by a bit of the instruction bitmap and take the hop they work on (R130); the
next seven are selected by the condition word (R209); the last six are invoked (R76). -/
inductive Instr where
  /-- INS_SWID (R131). -/
  | insSwid (k : HopIndex)
  /-- INS_PORTS (R132). -/
  | insPorts (k : HopIndex)
  /-- INS_HOPLAT (R133). -/
  | insHoplat (k : HopIndex)
  /-- INS_QOCC (R134). -/
  | insQocc (k : HopIndex)
  /-- INS_INGTS (R135). -/
  | insIngts (k : HopIndex)
  /-- INS_EGTS (R136). -/
  | insEgts (k : HopIndex)
  /-- INS_QCONG (R137). -/
  | insQcong (k : HopIndex)
  /-- INS_TXUTIL (R138). -/
  | insTxutil (k : HopIndex)
  /-- RESET (R230). -/
  | reset
  /-- PROCESS: one whole iteration (R186). -/
  | process
  /-- PROCESS.STOP (R187). -/
  | processStop
  /-- PROCESS.SKIP_MALFORMED (R188). -/
  | processSkipMalformed
  /-- PROCESS.SKIP_NOINT (R188). -/
  | processSkipNoint
  /-- PROCESS.REJECT (R188). -/
  | processReject
  /-- PROCESS.REPORT (R188). -/
  | processReport
  /-- DECODE: operands `len` and `raw[0..len-1]` (R100). -/
  | decode (len : Nat) (raw : List Byte)
  /-- ENCODE_HOP: operands the hop and the bitmap (R139). -/
  | encodeHop (k : HopIndex) (bmp : BitVec 16)
  /-- ENCODE_HOPS: operand `rec` (R140). -/
  | encodeHops
  /-- SEQ_NEXT: no operand (R180). -/
  | seqNext
  /-- BUILD: operands `sequence` and `report_ts`, and whether the stack scratch is supplied as the operand `stack`; `rec` and
  `Cfg` are the engine's own (R150). -/
  | build (sequence reportTs : BitVec 32) (supplied : Bool)
  /-- CSUM: a byte list of any length (R90). -/
  | csum (bs : List Byte)
  deriving DecidableEq, Repr

end Sys2Proof
end

