-- ==== Sys2Proof/WellFormed.lean ====
section
/-! DEFINITION. Which operations are well formed. The operands' types leave one thing to check: DECODE's `raw` is "a list
of `len` bytes" (spec/41_decode.md R100). -/

namespace Sys2Proof

/-- The operand check of an operation. Every operand but DECODE's is legal whatever it holds (R90: "Every byte list is a legal
operand"; R139, R150: any bitmap, sequence number and time stamp). -/
def Instr.wellFormed (i : Instr) : Bool :=
  match i with
  | .decode len raw => raw.length == len
  | .insSwid _ | .insPorts _ | .insHoplat _ | .insQocc _ | .insIngts _ | .insEgts _ | .insQcong _ | .insTxutil _
  | .reset | .process | .processStop | .processSkipMalformed | .processSkipNoint | .processReject | .processReport
  | .encodeHop _ _ | .encodeHops | .seqNext | .build _ _ _ | .csum _ => true

end Sys2Proof
end

