-- ==== Sys2Proof/Machine/State.lean ====
section
/-! DEFINITION. The machine's state (spec/10_state.md, spec/20_memory.md R30, spec/45_process_loop.md R185), the reasons it can
stop, and the state after reset. -/

namespace Sys2Proof.Machine

/-- The metric fields of one hop, `rec.hop[k]` (R12). -/
structure HopFields where
  switchId : BitVec 32
  ingressPort : BitVec 16
  egressPort : BitVec 16
  hopLatency : BitVec 32
  qId : BitVec 8
  qOcc : BitVec 24
  ingressTs : BitVec 32
  egressTs : BitVec 32
  qcId : BitVec 8
  qcVal : BitVec 24
  txUtil : BitVec 32
  deriving DecidableEq, Repr

/-- The decoded record `rec`, the engine's general registers (R11, R12); its three flags are the only flags (R19). -/
structure CapturedRecord where
  srcIp : BitVec 32
  dstIp : BitVec 32
  srcPort : BitVec 16
  dstPort : BitVec 16
  ipVer : BitVec 8
  l4Proto : BitVec 8
  intValid : Bool
  hop0Valid : Bool
  hop1Valid : Bool
  insCnt : BitVec 5
  insBitmap : BitVec 16
  intLength : BitVec 8
  hop0 : HopFields
  hop1 : HopFields
  deriving DecidableEq, Repr

/-- `rec.hop[k]` (R6, R12). -/
def CapturedRecord.hop (r : CapturedRecord) (k : HopIndex) : HopFields :=
  match k with
  | .hop0 => r.hop0
  | .hop1 => r.hop1

/-- What `rec.hop[k]` holds while the spec gives it "no value" (R14, R23). DESIGN CHOICE (log 2), unsafe: zero. -/
def HopFields.blank : HopFields :=
  { switchId := 0, ingressPort := 0, egressPort := 0, hopLatency := 0, qId := 0, qOcc := 0,
    ingressTs := 0, egressTs := 0, qcId := 0, qcVal := 0, txUtil := 0 }

/-- What `rec` holds while the spec gives it "no value" (R14, R23). DESIGN CHOICE (log 2), unsafe: zero. -/
def CapturedRecord.blank : CapturedRecord :=
  { srcIp := 0, dstIp := 0, srcPort := 0, dstPort := 0, ipVer := 0, l4Proto := 0, intValid := false,
    hop0Valid := false, hop1Valid := false, insCnt := 0, insBitmap := 0, intLength := 0,
    hop0 := .blank, hop1 := .blank }

/-- `run_state`, the six states D0 names (R17). -/
inductive RunState where
  | idle
  | decoding
  | skip
  | encoding
  | sending
  | stopped
  deriving DecidableEq, Repr

/-- The error kinds, a closed set (R200), with the info each records (R207). -/
inductive ErrorKind where
  /-- "wrong capture length" (R202): the offending length. -/
  | malformedRecord (len : Nat)
  /-- "bitmap/length mismatch" (R203): `int_length` and the stack length. -/
  | protocolInconsistency (intLength stackLength : Nat)
  /-- "builder invoked without valid INT data" (R204). -/
  | preconditionViolation
  /-- "external sender rejects the buffer" (R205). -/
  | transmitFailure
  /-- Raised by the collaborators only (R206). -/
  | resourceInitFailure
  deriving DecidableEq, Repr

/-- An emission on an output port (R185): `tx(bytes, dst_addr, dst_port)` or `log(kind)`. -/
inductive Emission where
  | tx (bytes : List Byte) (dstAddr : BitVec 32) (dstPort : BitVec 16)
  | log (kind : ErrorKind)
  deriving DecidableEq, Repr

/-- The transmit collaborator's answer (R21, R185). -/
inductive TxResult where
  | ok
  | fail
  deriving DecidableEq, Repr

/-- `rec_in = (len, raw, cap_ts32, cap_ifc)` (R21). The spec gives `cap_ifc` no width and no rule reads it. -/
structure RecIn where
  len : Nat
  raw : List Byte
  capTs32 : BitVec 32
  capIfc : Nat
  deriving DecidableEq, Repr

/-- `raw` is "a byte buffer of `len` bytes" (R21). -/
def RecIn.wellFormed (r : RecIn) : Bool :=
  r.raw.length == r.len

/-- The input ports as they stand in one step (R185). -/
structure Ports where
  reset : Bool
  stop : Bool
  recIn : Option RecIn
  txResult : TxResult
  deriving DecidableEq, Repr

/-- Nothing is presented: the engine waits (R190). -/
def Ports.quiet : Ports :=
  { reset := false, stop := false, recIn := none, txResult := .ok }

/-- A record that is presented is well formed (R21). -/
def Ports.wellFormed (p : Ports) : Bool :=
  match p.recIn with
  | some r => r.wellFormed
  | none => true

/-- What the outside presents to the engine in one step (log 1). -/
inductive Input where
  /-- The ports of R185, presented for one step (DESIGN CHOICE, log 25). -/
  | ports (p : Ports)
  /-- A bitmap given to the serializer for hop `k`: its instructions run one a step, highest bit first (R139). The hop's valid
  flag is not looked at (DESIGN CHOICE, log 24). -/
  | bitmap (k : HopIndex) (w : BitVec 16)
  /-- A direct invocation of an operation while the ports stand at `p` (spec/95_test_vectors.md P4, X15 to X17); INS_* and
  ENCODE_HOP on a hop of either validity (DESIGN CHOICE, log 24). -/
  | invoke (p : Ports) (i : Instr)
  /-- The integrator changes `Cfg` between iterations (R41, R236); the `recEndian` it brings is not taken over (R34, log 23). -/
  | configure (c : Cfg)
  deriving DecidableEq, Repr

/-- Well-formed inputs: a record's `raw` has `len` bytes, an invoked operation is well formed. -/
def Input.wellFormed (x : Input) : Bool :=
  match x with
  | .ports p => p.wellFormed
  | .bitmap _ _ => true
  | .invoke p i => p.wellFormed && i.wellFormed
  | .configure _ => true

/-- A byte-addressed space (R30): the bytes that hold a value, as (address, byte) pairs with strictly rising addresses. An
address that is not listed holds no value (R23, R32; log 7). -/
abbrev Memory := List Host.Cell

/-- The canonical form: addresses strictly rising. No listed entry can equal what an unlisted address reads as, since that is
no value at all. -/
def Memory.wf : Memory → Bool
  | [] => true
  | [_] => true
  | c :: d :: m => decide (c.1 < d.1) && Memory.wf (d :: m)

/-- The engine's state. -/
structure State where
  /-- The sequence counter (R16). -/
  seq : BitVec 32
  /-- The loop state (R17). -/
  runState : RunState
  /-- The decoded record `rec` (R11 to R14). -/
  record : CapturedRecord
  /-- The stack scratch (R18). -/
  stack : List Byte
  /-- The record buffer REC (R30, R31). -/
  recBuf : Memory
  /-- The output buffer OUT (R30, R32). -/
  out : Memory
  /-- The configuration inputs (R4, R20). -/
  cfg : Cfg
  /-- The input ports as the last entry that sets them left them (R185, log 1): what it shows of reset, stop and the record has acted
  in that entry's step and acts no more (DESIGN CHOICE, log 25). -/
  ports : Ports
  /-- The MODEL's own: what the outside presents in the steps to come, one entry a step (log 1). -/
  pending : List Input
  /-- The MODEL's own: everything emitted so far, oldest first (log 4). -/
  emitted : List Emission
  /-- The MODEL's own: what the last directly invoked SEQ_NEXT or CSUM returned to its invoker (log 5). -/
  ret : BitVec 32
  deriving DecidableEq, Repr

/-- Where the machine stops. Both constructors are the model's, and both are safe: the spec says of REC and OUT that they are
"not readable before written" (R23), and no operation on a well-formed input reads an unwritten byte. -/
inductive Fault where
  /-- A byte of REC that nothing has written is read: raised by DECODE and by PROCESS and its outcomes when a record claims 128
  bytes and brings fewer (an ill-formed input). Safe. -/
  | recUnwritten
  /-- A byte of OUT that nothing has written is read: raised where BUILD's checksum or the transmission would read one. Safe;
  no state reaches it. -/
  | outUnwritten
  deriving DecidableEq, Repr

/-- Why an operation has no meaning. -/
inductive Refusal where
  /-- No meaning yet: raised by `exec`'s refused arms only. Safe. -/
  | notModelled (mnemonic : String)
  deriving DecidableEq, Repr

/-- The state after RESET (R23, R230): `seq` 0 and `run_state` IDLE are the spec's, REC and OUT hold no value, `rec` and `stack`
are at the values of log 2; `Cfg` is an input and holds R4's defaults, with CFG_DST_ADDR, which has none, at 0 (DESIGN CHOICE,
log 3); nothing is presented and nothing has been emitted (log 1, log 4, log 5). -/
def State.reset : State :=
  { seq := 0
    runState := .idle
    record := .blank
    stack := []
    recBuf := []
    out := []
    cfg := { dstAddr := 0 }
    ports := .quiet
    pending := []
    emitted := []
    ret := 0 }

end Sys2Proof.Machine
end

