-- ==== Sys2Proof/Machine/Ops.lean ====
section
/-! DEFINITION. The shared operations: reading and writing the two buffers (spec/20_memory.md, spec/00_scope.md R6), emitting,
raising an error kind (spec/60_exceptions.md), ending an iteration. -/

namespace Sys2Proof.Machine

/-- The byte at an address, none where nothing has written it. -/
def Memory.read : Memory → Nat → Option Byte
  | [], _ => none
  | c :: m, a => if a = c.1 then some c.2 else Memory.read m a

/-- Writes one byte, keeping the addresses strictly rising. -/
def Memory.write : Memory → Nat → Byte → Memory
  | [], a, b => [(a, b)]
  | c :: m, a, b =>
    if a < c.1 then (a, b) :: c :: m
    else if a = c.1 then (a, b) :: m
    else c :: Memory.write m a b

/-- `MemWriteBytes(a, bs)`: the byte list in list order from `a` on (R6). -/
def Memory.writeBytes : Memory → Nat → List Byte → Memory
  | m, _, [] => m
  | m, a, b :: bs => Memory.writeBytes (Memory.write m a b) (a + 1) bs

/-- `MemRead(a, n)`: the `n` bytes from `a` on (R6), none where one of them holds no value. -/
def Memory.readBytes (m : Memory) (a : Nat) : Nat → Option (List Byte)
  | 0 => some []
  | n + 1 =>
    match Memory.read m a, Memory.readBytes m (a + 1) n with
    | some b, some bs => some (b :: bs)
    | _, _ => none

/-- A list of writes in order, each an address and the bytes stored from it on. -/
def Memory.applyWrites (m : Memory) (ws : List (Nat × List Byte)) : Memory :=
  ws.foldl (fun m w => Memory.writeBytes m w.1 w.2) m

/-- `MemWrite(OUT:a, n, v)` as a write: `n` bytes, big-endian (R6, R35). -/
def memWrite (a n v : Nat) : Nat × List Byte :=
  (a, beBytes n v)

/-- `REC:0..127 <- raw` (R31, R100): byte `i` of the buffer is `REC:i`; REC has 128 addresses. -/
def loadRec (raw : List Byte) : Memory :=
  Memory.writeBytes [] 0 (raw.take recLen)

/-- An emission on `tx` or `log`, after those already made (R185, R201). -/
def State.emit (s : State) (e : Emission) : State :=
  { s with emitted := s.emitted ++ [e] }

/-- The code the `log` port carries for a kind (R207). -/
def ErrorKind.code (k : ErrorKind) : Nat :=
  match k with
  | .malformedRecord _ => 1
  | .protocolInconsistency _ _ => 2
  | .preconditionViolation => 3
  | .transmitFailure => 4
  | .resourceInitFailure => 5

/-- The loop state after an error kind, the last column of R207: the recoverable kinds leave IDLE, the fatal ones STOPPED
(R202 to R206, R211). -/
def ErrorKind.loopAfter (k : ErrorKind) : RunState :=
  match k with
  | .malformedRecord _ => .idle
  | .protocolInconsistency _ _ => .idle
  | .preconditionViolation => .stopped
  | .transmitFailure => .stopped
  | .resourceInitFailure => .stopped

/-- Raising an error kind: one emission on `log` (R201) and the loop state of R207. Nothing is saved, there is no handler and no
return (R210, R211), and `seq` is not changed by it (R210). -/
def raiseError (k : ErrorKind) (s : State) : State :=
  { s.emit (.log k) with runState := k.loopAfter }

/-- The end of an iteration: `rec`, `stack` and the two buffers hold no value any more (R10, R14, R210), and the loop is in the
state given. -/
def State.endIteration (s : State) (r : RunState) : State :=
  { s with record := .blank, stack := [], recBuf := [], out := [], runState := r }

/-- The configuration a change brings, over the one in force: every parameter but `REC_ENDIAN` is the new one, and the byte order
of the captured record stays as it is, for it "cannot be switched at run time" (R34; log 23). -/
def Cfg.reconfigured (old new : Cfg) : Cfg :=
  { new with recEndian := old.recEndian }

/-- The integrator changes the configuration between iterations (R41, R236). -/
def State.reconfigure (s : State) (c : Cfg) : State :=
  { s with cfg := Cfg.reconfigured s.cfg c }

/-- An operation is available only where `run_state` allows PROCESS (R186, R212); elsewhere there is no step but RESET (R190),
and the state stays as it is (R191, log 12). -/
def State.whenIdle (s : State) (o : Host.Outcome State Fault Refusal) : Host.Outcome State Fault Refusal :=
  if s.runState = .idle then o else .next s

/-- The result of an operation that can raise an error kind (R200). -/
inductive OpResult (α : Type) where
  | done (a : α)
  | raised (k : ErrorKind)
  /-- A buffer byte without a value was read. -/
  | fault (f : Fault)
  deriving Repr

end Sys2Proof.Machine
end

