-- ==== Sys2Proof/Machine/Checksum.lean ====
section
/-! DEFINITION. The Checksum Calculator (spec/40_checksum.md): the internet checksum of a byte list and the operation CSUM. -/

namespace Sys2Proof.Machine

/-- A byte list padded to an even length with one zero byte (R90). -/
def padEven (bs : List Byte) : List Byte :=
  if bs.length % 2 = 1 then bs ++ [0] else bs

/-- The sum of the 16-bit big-endian words of a list of even length (R90), over the unbounded integers. -/
def wordSum : List Byte → Nat
  | a :: b :: bs => (a.toNat * 256 + b.toNat) + wordSum bs
  | _ => 0

/-- The loop "while sum >= 65536: sum = (sum mod 65536) + (sum div 65536)" (R90), at most `fuel` times. -/
def foldCarry : Nat → Nat → Nat
  | 0, sum => sum
  | fuel + 1, sum => if 65536 ≤ sum then foldCarry fuel (sum % 65536 + sum / 65536) else sum

/-- The folded ones'-complement sum: each fold strictly decreases the sum (R94), so as many folds as the sum itself are enough. -/
def foldedSum (bs : List Byte) : Nat :=
  foldCarry (wordSum (padEven bs)) (wordSum (padEven bs))

/-- `csum16(bs)` (R90): the ones' complement of the folded sum. -/
def csum16 (bs : List Byte) : BitVec 16 :=
  ~~~(BitVec.ofNat 16 (foldedSum bs))

/-- CSUM (R90), invoked directly: no state of the spec's is written; the result is handed to the invoker (log 5). -/
def execCsum (bs : List Byte) (s : State) : Host.Outcome State Fault Refusal :=
  s.whenIdle (.next { s with ret := (csum16 bs).setWidth 32 })

end Sys2Proof.Machine
end

