-- ==== Sys2Proof/Machine/Flags.lean ====
section
/-! DEFINITION. The quantities derived from the decoded record and its three flags (spec/10_state.md R15, R19): functions of
`rec`, recomputed wherever used. All length arithmetic is over the integers (R74). -/

namespace Sys2Proof.Machine

/-- `popcount(v)`: the number of 1 bits (R5). -/
def popcount {w : Nat} (v : BitVec w) : Nat :=
  ((List.range w).filter fun i => v.getLsbD i).length

/-- `nsel`: the number of metric classes selected, `popcount(ins_bitmap[15:8])` (R15). -/
def selectedClasses (bmp : BitVec 16) : Nat :=
  popcount (bmp.extractLsb' 8 8)

/-- `nhops(rec)` (R15). -/
def CapturedRecord.nhops (r : CapturedRecord) : Nat :=
  r.hop0Valid.toNat + r.hop1Valid.toNat

/-- `hop_bytes(rec)`: the bytes one hop contributes (R15). -/
def CapturedRecord.hopBytes (r : CapturedRecord) : Nat :=
  4 * selectedClasses r.insBitmap

/-- `S(rec)`: the stack length in bytes (R15). -/
def CapturedRecord.stackBytes (r : CapturedRecord) : Nat :=
  r.nhops * r.hopBytes

/-- `L`: `int_length` as a number (R15). -/
def CapturedRecord.words (r : CapturedRecord) : Nat :=
  r.intLength.toNat

/-- The test `4*L - 16 = n` over the integers, no wrap (R74, R141). -/
def CapturedRecord.declares (r : CapturedRecord) (n : Nat) : Bool :=
  (4 * (r.words : Int) - 16) == (n : Int)

/-- `consistent(rec)` (R15, R141). -/
def CapturedRecord.consistent (r : CapturedRecord) : Bool :=
  r.declares r.stackBytes

/-- `TOTAL(rec) = 93 + 4*L` (R15, R151). -/
def CapturedRecord.total (r : CapturedRecord) : Nat :=
  93 + 4 * r.words

end Sys2Proof.Machine
end

