-- ==== Sys2Proof/Machine/HopStack.lean ====
section
/-! DEFINITION. The Hop Metadata Stack Encoder (spec/42_hop_stack.md): the eight instructions of the bitmap, ENCODE_HOP and
ENCODE_HOPS. INS_* and ENCODE_HOP read their operand `rec.hop[k]` and no other state (R130), the hop's valid flag included: what they
do when invoked directly on a hop whose flag is 0 is the model's own (DESIGN CHOICE, log 24). ENCODE_HOPS looks at the flags (R140). -/

namespace Sys2Proof.Machine

/-- What INS_SWID appends: `append_4(h.switch_id)` (R131). -/
def itemSwid (h : HopFields) : List Byte := beBytes 4 h.switchId.toNat
/-- What INS_PORTS appends: `append_2(h.ingress_port); append_2(h.egress_port)` (R132). -/
def itemPorts (h : HopFields) : List Byte := beBytes 2 h.ingressPort.toNat ++ beBytes 2 h.egressPort.toNat
/-- What INS_HOPLAT appends: `append_4(h.hop_latency)` (R133). -/
def itemHoplat (h : HopFields) : List Byte := beBytes 4 h.hopLatency.toNat
/-- What INS_QOCC appends: `append_1(h.q_id); append_3(h.q_occ)` (R134). -/
def itemQocc (h : HopFields) : List Byte := beBytes 1 h.qId.toNat ++ beBytes 3 h.qOcc.toNat
/-- What INS_INGTS appends: `append_4(h.ingress_ts)` (R135). -/
def itemIngts (h : HopFields) : List Byte := beBytes 4 h.ingressTs.toNat
/-- What INS_EGTS appends: `append_4(h.egress_ts)` (R136). -/
def itemEgts (h : HopFields) : List Byte := beBytes 4 h.egressTs.toNat
/-- What INS_QCONG appends: `append_1(h.qc_id); append_3(h.qc_val)` (R137). -/
def itemQcong (h : HopFields) : List Byte := beBytes 1 h.qcId.toNat ++ beBytes 3 h.qcVal.toNat
/-- What INS_TXUTIL appends: `append_4(h.tx_util)` (R138). -/
def itemTxutil (h : HopFields) : List Byte := beBytes 4 h.txUtil.toNat

/-- What ENCODE_HOP(h, bmp) appends: in descending bit order, each item whose bit is set; bits 7:0 select nothing (R139). -/
def hopItems (h : HopFields) (bmp : BitVec 16) : List Byte :=
  (if bmp.getLsbD 15 then itemSwid h else [])
    ++ (if bmp.getLsbD 14 then itemPorts h else [])
    ++ (if bmp.getLsbD 13 then itemHoplat h else [])
    ++ (if bmp.getLsbD 12 then itemQocc h else [])
    ++ (if bmp.getLsbD 11 then itemIngts h else [])
    ++ (if bmp.getLsbD 10 then itemEgts h else [])
    ++ (if bmp.getLsbD 9 then itemQcong h else [])
    ++ (if bmp.getLsbD 8 then itemTxutil h else [])

/-- The bytes ENCODE_HOPS serializes: hop 1 first, then hop 0, each only if its flag is set (R140). -/
def hopsBytes (r : CapturedRecord) : List Byte :=
  (if r.hop1Valid then hopItems r.hop1 r.insBitmap else [])
    ++ (if r.hop0Valid then hopItems r.hop0 r.insBitmap else [])

/-- ENCODE_HOPS with its length check (R140, R141). -/
def encodeHopsOp (r : CapturedRecord) : OpResult (List Byte) :=
  if r.declares (hopsBytes r).length then .done (hopsBytes r)
  else .raised (.protocolInconsistency r.words (hopsBytes r).length)

/-- Appends bytes at the stack's end; the cursor is the stack's length (R130). -/
def State.appendStack (s : State) (bs : List Byte) : State :=
  { s with stack := s.stack ++ bs }

/-- INS_SWID (R131), on `rec.hop[k]` whatever its valid flag (log 24). -/
def execInsSwid (k : HopIndex) (s : State) : Host.Outcome State Fault Refusal :=
  s.whenIdle (.next (s.appendStack (itemSwid (s.record.hop k))))

/-- INS_PORTS (R132), on `rec.hop[k]` whatever its valid flag (log 24). -/
def execInsPorts (k : HopIndex) (s : State) : Host.Outcome State Fault Refusal :=
  s.whenIdle (.next (s.appendStack (itemPorts (s.record.hop k))))

/-- INS_HOPLAT (R133), on `rec.hop[k]` whatever its valid flag (log 24). -/
def execInsHoplat (k : HopIndex) (s : State) : Host.Outcome State Fault Refusal :=
  s.whenIdle (.next (s.appendStack (itemHoplat (s.record.hop k))))

/-- INS_QOCC (R134), on `rec.hop[k]` whatever its valid flag (log 24). -/
def execInsQocc (k : HopIndex) (s : State) : Host.Outcome State Fault Refusal :=
  s.whenIdle (.next (s.appendStack (itemQocc (s.record.hop k))))

/-- INS_INGTS (R135), on `rec.hop[k]` whatever its valid flag (log 24). -/
def execInsIngts (k : HopIndex) (s : State) : Host.Outcome State Fault Refusal :=
  s.whenIdle (.next (s.appendStack (itemIngts (s.record.hop k))))

/-- INS_EGTS (R136), on `rec.hop[k]` whatever its valid flag (log 24). -/
def execInsEgts (k : HopIndex) (s : State) : Host.Outcome State Fault Refusal :=
  s.whenIdle (.next (s.appendStack (itemEgts (s.record.hop k))))

/-- INS_QCONG (R137), on `rec.hop[k]` whatever its valid flag (log 24). -/
def execInsQcong (k : HopIndex) (s : State) : Host.Outcome State Fault Refusal :=
  s.whenIdle (.next (s.appendStack (itemQcong (s.record.hop k))))

/-- INS_TXUTIL (R138), on `rec.hop[k]` whatever its valid flag (log 24). -/
def execInsTxutil (k : HopIndex) (s : State) : Host.Outcome State Fault Refusal :=
  s.whenIdle (.next (s.appendStack (itemTxutil (s.record.hop k))))

/-- ENCODE_HOP (R139), on `rec.hop[k]` whatever its valid flag (DESIGN CHOICE, log 24). -/
def execEncodeHop (k : HopIndex) (bmp : BitVec 16) (s : State) : Host.Outcome State Fault Refusal :=
  s.whenIdle (.next (s.appendStack (hopItems (s.record.hop k) bmp)))

/-- ENCODE_HOPS (R140), invoked directly: the stack starts empty and holds what was serialized; where the length check fails
(R141) the error kind is raised after the bytes were appended (DEDUCED, log 11). -/
def execEncodeHops (s : State) : Host.Outcome State Fault Refusal :=
  s.whenIdle <|
    match encodeHopsOp s.record with
    | .done bs => .next { s with stack := bs }
    | .raised k => .next (raiseError k { s with stack := hopsBytes s.record })
    | .fault f => .fault f

end Sys2Proof.Machine
end

