-- ==== Sys2Proof/Machine/Builder.lean ====
section
/-! DEFINITION. The Telemetry Report Packet Builder (spec/43_report_builder.md): one definition for each header it writes, and
BUILD. -/

namespace Sys2Proof.Machine

/-- The outer IPv4 header (R152). -/
def writesOuterIpv4 (c : Cfg) (total : Nat) : List (Nat × List Byte) :=
  [memWrite 0 1 0x45, memWrite 1 1 0x00, memWrite 2 2 total, memWrite 4 2 0x0000, memWrite 6 2 0x0000,
   memWrite 8 1 c.outerTtl.toNat, memWrite 9 1 17, memWrite 10 2 0x0000,
   memWrite 12 4 c.srcAddr.toNat, memWrite 16 4 c.dstAddr.toNat]

/-- The outer UDP header (R153). -/
def writesOuterUdp (c : Cfg) (total : Nat) : List (Nat × List Byte) :=
  [memWrite 20 2 c.srcPort.toNat, memWrite 22 2 c.dstPort.toNat, memWrite 24 2 (total - 20), memWrite 26 2 0x0000]

/-- The Telemetry-Report header's first word (R154). -/
def writesReportWord (c : Cfg) : List (Nat × List Byte) :=
  [memWrite 28 1 (c.trVer ++ c.trNproto).toNat, memWrite 29 2 trReserved16.toNat, memWrite 31 1 (c.hwId ++ 0#2).toNat]

/-- The Telemetry-Report header's sequence number and time stamp (R155). -/
def writesReportStamp (sequence reportTs : BitVec 32) : List (Nat × List Byte) :=
  [memWrite 32 4 sequence.toNat, memWrite 36 4 reportTs.toNat]

/-- The inner Ethernet header (R156). -/
def writesEthernet (c : Cfg) : List (Nat × List Byte) :=
  [memWrite 40 6 c.dstMac.toNat, memWrite 46 6 c.srcMac.toNat, memWrite 52 2 0x0800]

/-- The inner IPv4 header with a zero checksum (R157). -/
def writesInnerIpv4 (c : Cfg) (r : CapturedRecord) (total : Nat) : List (Nat × List Byte) :=
  [memWrite 54 1 0x45, memWrite 55 1 0x00, memWrite 56 2 (total - 54), memWrite 58 2 0x0000, memWrite 60 2 0x0000,
   memWrite 62 1 c.innerTtl.toNat, memWrite 63 1 r.l4Proto.toNat, memWrite 64 2 0x0000,
   memWrite 66 4 r.srcIp.toNat, memWrite 70 4 r.dstIp.toNat]

/-- The inner UDP header, in UDP layout whatever `l4_proto` is (R159). -/
def writesInnerUdp (r : CapturedRecord) (total : Nat) : List (Nat × List Byte) :=
  [memWrite 74 2 r.srcPort.toNat, memWrite 76 2 r.dstPort.toNat, memWrite 78 2 (total - 74), memWrite 80 2 0x0000]

/-- The INT shim header (R160). -/
def writesShim (r : CapturedRecord) : List (Nat × List Byte) :=
  [memWrite 82 1 1, memWrite 83 1 0, memWrite 84 1 r.intLength.toNat, memWrite 85 1 0]

/-- The INT header (R161). -/
def writesIntHeader (r : CapturedRecord) : List (Nat × List Byte) :=
  [memWrite 86 1 0x00, memWrite 87 1 r.insCnt.toNat, memWrite 88 1 0x00, memWrite 89 1 r.nhops,
   memWrite 90 2 r.insBitmap.toNat, memWrite 92 2 0x0000]

/-- The hop metadata stack (R162). -/
def writesStack (stack : List Byte) : List (Nat × List Byte) :=
  [(94, stack)]

/-- The tail offset `T = 78 + 4*L` (R151). -/
def CapturedRecord.tailOffset (r : CapturedRecord) : Nat :=
  78 + 4 * r.words

/-- The payload offset `P = 82 + 4*L` (R151). -/
def CapturedRecord.payloadOffset (r : CapturedRecord) : Nat :=
  82 + 4 * r.words

/-- The INT tail header (R163). -/
def writesTail (r : CapturedRecord) : List (Nat × List Byte) :=
  [memWrite r.tailOffset 1 r.l4Proto.toNat, memWrite (r.tailOffset + 1) 2 r.dstPort.toNat, memWrite (r.tailOffset + 3) 1 0x00]

/-- The payload (R164). -/
def writesPayload (r : CapturedRecord) : List (Nat × List Byte) :=
  [(r.payloadOffset, payload)]

/-- OUT after the headers up to the inner IPv4 header, its checksum field zero (R152 to R157). -/
def outBeforeChecksum (c : Cfg) (r : CapturedRecord) (sequence reportTs : BitVec 32) : Memory :=
  Memory.applyWrites []
    (writesOuterIpv4 c r.total ++ writesOuterUdp c r.total ++ writesReportWord c ++ writesReportStamp sequence reportTs
      ++ writesEthernet c ++ writesInnerIpv4 c r r.total)

/-- The writes after the inner IPv4 checksum (R159 to R164). -/
def writesAfterChecksum (r : CapturedRecord) (stack : List Byte) : List (Nat × List Byte) :=
  writesInnerUdp r r.total ++ writesShim r ++ writesIntHeader r ++ writesStack stack ++ writesTail r ++ writesPayload r

/-- The steps of BUILD in the order of R165: the headers, the checksum over OUT:54..73 filled in (R158), the rest. None where
the checksum would read a byte without a value. -/
def buildOut (c : Cfg) (r : CapturedRecord) (sequence reportTs : BitVec 32) (stack : List Byte) : Option Memory :=
  let out := outBeforeChecksum c r sequence reportTs
  match out.readBytes 54 20 with
  | some header =>
    some (Memory.applyWrites out (memWrite 64 2 (csum16 header).toNat :: writesAfterChecksum r stack))
  | none => none

/-- BUILD's writing part with the stack it was given: R150 requires that its length is `4*L - 16`, and R151 that the record is
consistent; a stack that is not of that length is rejected rather than written out of bounds (DEDUCED from R141 and R150, log 10). -/
def buildWith (c : Cfg) (r : CapturedRecord) (sequence reportTs : BitVec 32) (stack : List Byte) : OpResult Memory :=
  if !r.consistent then .raised (.protocolInconsistency r.words r.stackBytes)
  else if !r.declares stack.length then .raised (.protocolInconsistency r.words stack.length)
  else
    match buildOut c r sequence reportTs stack with
    | some m => .done m
    | none => .fault .outUnwritten

/-- BUILD (R150): PreconditionViolation first, then the stack, computed by ENCODE_HOPS where it was not supplied, then the
writes. -/
def buildOp (c : Cfg) (r : CapturedRecord) (sequence reportTs : BitVec 32) (stack : Option (List Byte)) : OpResult Memory :=
  if !r.intValid then .raised .preconditionViolation
  else
    match stack with
    | some bs => buildWith c r sequence reportTs bs
    | none =>
      match encodeHopsOp r with
      | .done bs => buildWith c r sequence reportTs bs
      | .raised k => .raised k
      | .fault f => .fault f

/-- BUILD (R150), invoked directly: OUT is written, nothing else; where it raises, no byte of OUT is defined (log 8, log 9). -/
def execBuild (sequence reportTs : BitVec 32) (supplied : Bool) (s : State) : Host.Outcome State Fault Refusal :=
  s.whenIdle <|
    match buildOp s.cfg s.record sequence reportTs (if supplied then some s.stack else none) with
    | .done m => .next { s with out := m }
    | .raised k => .next (raiseError k { s with out := [] })
    | .fault f => .fault f

end Sys2Proof.Machine
end

