-- ==== Sys2Proof/Machine/Operands.lean ====
section
/-! DEFINITION. How each field of `rec` is assembled from the bytes of REC (spec/41_decode.md R101 to R122, spec/30_encoding.md
R73), one definition a rule, and the record's byte image in the default layout (R51 to R54). -/

namespace Sys2Proof.Machine

/-- A 32-bit field at `a`: `RecU(a, 4)` (R73). -/
def rec32 (c : Cfg) (bs : List Byte) (a : Nat) : BitVec 32 :=
  BitVec.ofNat 32 (recU c.recEndian bs a 4)

/-- A 16-bit field at `a`: `RecU(a, 2)` (R73). -/
def rec16 (c : Cfg) (bs : List Byte) (a : Nat) : BitVec 16 :=
  BitVec.ofNat 16 (recU c.recEndian bs a 2)

/-- A one-byte field at `a`: `MemRead(REC:a, 1)`; single bytes have no order (R34). -/
def rec8 (bs : List Byte) (a : Nat) : BitVec 8 :=
  BitVec.ofNat 8 (leNat (memRead bs a 1))

/-- R101. -/
def recSrcIp (c : Cfg) (bs : List Byte) : BitVec 32 := rec32 c bs c.layout.srcIp
/-- R102. -/
def recDstIp (c : Cfg) (bs : List Byte) : BitVec 32 := rec32 c bs c.layout.dstIp
/-- R103. -/
def recSrcPort (c : Cfg) (bs : List Byte) : BitVec 16 := rec16 c bs c.layout.srcPort
/-- R104. -/
def recDstPort (c : Cfg) (bs : List Byte) : BitVec 16 := rec16 c bs c.layout.dstPort
/-- R105: the whole byte, not checked. -/
def recIpVer (c : Cfg) (bs : List Byte) : BitVec 8 := rec8 bs c.layout.ipVer
/-- R106: the whole byte, not checked. -/
def recL4Proto (c : Cfg) (bs : List Byte) : BitVec 8 := rec8 bs c.layout.l4Proto
/-- The flags byte (R52). -/
def recFlags (c : Cfg) (bs : List Byte) : BitVec 8 := rec8 bs c.layout.flags
/-- R107: bits 7:3 of the flags byte. -/
def recInsCnt (c : Cfg) (bs : List Byte) : BitVec 5 := (recFlags c bs).extractLsb' c.layout.insCntBit 5
/-- R108: bit 2 of the flags byte. -/
def recIntValid (c : Cfg) (bs : List Byte) : Bool := (recFlags c bs).getLsbD c.layout.intValidBit
/-- R109: bit 1 of the flags byte. -/
def recHop0Valid (c : Cfg) (bs : List Byte) : Bool := (recFlags c bs).getLsbD c.layout.hop0ValidBit
/-- R110: bit 0 of the flags byte. -/
def recHop1Valid (c : Cfg) (bs : List Byte) : Bool := (recFlags c bs).getLsbD c.layout.hop1ValidBit
/-- R111. -/
def recIntLength (c : Cfg) (bs : List Byte) : BitVec 8 := rec8 bs c.layout.intLength
/-- R112: all 16 bits, the reserved bits 7:0 included. -/
def recInsBitmap (c : Cfg) (bs : List Byte) : BitVec 16 := rec16 c bs c.layout.insBitmap

/-- `HB(k)` (R54). -/
def hopBase (c : Cfg) (k : HopIndex) : Nat :=
  match k with
  | .hop0 => c.layout.hop0Base
  | .hop1 => c.layout.hop1Base

/-- The id of a packed pair word `w` (R53): bits 31:24. -/
def pairId (c : Cfg) (w : BitVec 32) : BitVec 8 := w.extractLsb' c.layout.pairIdBit 8
/-- The value of a packed pair word `w` (R53): bits 23:0. -/
def pairVal (c : Cfg) (w : BitVec 32) : BitVec 24 := w.extractLsb' c.layout.pairValBit 24

/-- R114. -/
def recSwitchId (c : Cfg) (bs : List Byte) (k : HopIndex) : BitVec 32 := rec32 c bs (hopBase c k + c.layout.switchId)
/-- R115. -/
def recIngressPort (c : Cfg) (bs : List Byte) (k : HopIndex) : BitVec 16 := rec16 c bs (hopBase c k + c.layout.ingressPort)
/-- R116. -/
def recEgressPort (c : Cfg) (bs : List Byte) (k : HopIndex) : BitVec 16 := rec16 c bs (hopBase c k + c.layout.egressPort)
/-- R117. -/
def recHopLatency (c : Cfg) (bs : List Byte) (k : HopIndex) : BitVec 32 := rec32 c bs (hopBase c k + c.layout.hopLatency)
/-- R118: the queue-occupancy pair word. -/
def recQPair (c : Cfg) (bs : List Byte) (k : HopIndex) : BitVec 32 := rec32 c bs (hopBase c k + c.layout.qPair)
/-- R119. -/
def recIngressTs (c : Cfg) (bs : List Byte) (k : HopIndex) : BitVec 32 := rec32 c bs (hopBase c k + c.layout.ingressTs)
/-- R120. -/
def recEgressTs (c : Cfg) (bs : List Byte) (k : HopIndex) : BitVec 32 := rec32 c bs (hopBase c k + c.layout.egressTs)
/-- R121: the queue-congestion pair word. -/
def recQcPair (c : Cfg) (bs : List Byte) (k : HopIndex) : BitVec 32 := rec32 c bs (hopBase c k + c.layout.qcPair)
/-- R122. -/
def recTxUtil (c : Cfg) (bs : List Byte) (k : HopIndex) : BitVec 32 := rec32 c bs (hopBase c k + c.layout.txUtil)

/-- The fields of `rec.hop[k]`, decoded whatever the flags say (R113). -/
def decodeHop (c : Cfg) (bs : List Byte) (k : HopIndex) : HopFields :=
  { switchId := recSwitchId c bs k
    ingressPort := recIngressPort c bs k
    egressPort := recEgressPort c bs k
    hopLatency := recHopLatency c bs k
    qId := pairId c (recQPair c bs k)
    qOcc := pairVal c (recQPair c bs k)
    ingressTs := recIngressTs c bs k
    egressTs := recEgressTs c bs k
    qcId := pairId c (recQcPair c bs k)
    qcVal := pairVal c (recQcPair c bs k)
    txUtil := recTxUtil c bs k }

/-- The record of the 128 bytes of REC: R101 to R122 applied, no validation (R123). -/
def decodeFields (c : Cfg) (bs : List Byte) : CapturedRecord :=
  { srcIp := recSrcIp c bs
    dstIp := recDstIp c bs
    srcPort := recSrcPort c bs
    dstPort := recDstPort c bs
    ipVer := recIpVer c bs
    l4Proto := recL4Proto c bs
    intValid := recIntValid c bs
    hop0Valid := recHop0Valid c bs
    hop1Valid := recHop1Valid c bs
    insCnt := recInsCnt c bs
    insBitmap := recInsBitmap c bs
    intLength := recIntLength c bs
    hop0 := decodeHop c bs .hop0
    hop1 := decodeHop c bs .hop1 }

/-- The record REC holds, none where a byte of it holds no value. -/
def decodeRec (c : Cfg) (m : Memory) : Option CapturedRecord :=
  (m.readBytes 0 recLen).map (decodeFields c)

/-- The byte image of a hop block in the default layout (R54). -/
def hopImage (e : Endian) (h : HopFields) : List Byte :=
  natBytes e 4 h.switchId.toNat ++ natBytes e 2 h.ingressPort.toNat ++ natBytes e 2 h.egressPort.toNat
    ++ natBytes e 4 h.hopLatency.toNat ++ natBytes e 4 (h.qId ++ h.qOcc).toNat
    ++ natBytes e 4 h.ingressTs.toNat ++ natBytes e 4 h.egressTs.toNat
    ++ natBytes e 4 (h.qcId ++ h.qcVal).toNat ++ natBytes e 4 h.txUtil.toNat

/-- The flags byte of a record in the default layout (R52). -/
def flagsImage (r : CapturedRecord) : Byte :=
  r.insCnt ++ BitVec.ofBool r.intValid ++ BitVec.ofBool r.hop0Valid ++ BitVec.ofBool r.hop1Valid

/-- The 128 bytes a capture layer delivers for a record in the default layout (R51), reserved bytes zero (R77). -/
def recordImage (e : Endian) (r : CapturedRecord) : List Byte :=
  natBytes e 4 r.srcIp.toNat ++ natBytes e 4 r.dstIp.toNat ++ natBytes e 2 r.srcPort.toNat ++ natBytes e 2 r.dstPort.toNat
    ++ [r.ipVer, r.l4Proto, flagsImage r, r.intLength] ++ natBytes e 2 r.insBitmap.toNat ++ [0, 0]
    ++ hopImage e r.hop0 ++ hopImage e r.hop1 ++ List.replicate 44 0

end Sys2Proof.Machine
end

