-- ==== Sys2Proof/Machine/RecordDecoder.lean ====
section
/-! DEFINITION. The INT Record Decoder (spec/41_decode.md): DECODE. -/

namespace Sys2Proof.Machine

/-- DECODE(len, raw) (R100): any length but 128 raises MalformedRecord and nothing is decoded; otherwise REC takes the bytes
and the record is assembled from REC. -/
def decodeOp (c : Cfg) (len : Nat) (raw : List Byte) : OpResult CapturedRecord :=
  if len ≠ recLen then .raised (.malformedRecord len)
  else
    match decodeRec c (loadRec raw) with
    | some r => .done r
    | none => .fault .recUnwritten

/-- DECODE (R100), invoked directly: `rec` and REC are written, or the error kind is raised and they are not (X17; log 8). -/
def execDecode (len : Nat) (raw : List Byte) (s : State) : Host.Outcome State Fault Refusal :=
  s.whenIdle <|
    match decodeOp s.cfg len raw with
    | .done r => .next { s with record := r, recBuf := loadRec raw }
    | .raised k => .next (raiseError k s)
    | .fault f => .fault f

end Sys2Proof.Machine
end

