-- ==== Sys2Proof/Machine/Sequencer.lean ====
section
/-! DEFINITION. The Report Sequencer (spec/44_sequencer.md): SEQ_NEXT. -/

namespace Sys2Proof.Machine

/-- SEQ_NEXT's write: `seq <- seq +_32 1` (R180). The number it returns is the new `seq`. -/
def State.advanceSeq (s : State) : State :=
  { s with seq := s.seq + 1 }

/-- SEQ_NEXT (R180), invoked directly: one indivisible increment, the new value handed to the invoker (log 5). -/
def execSeqNext (s : State) : Host.Outcome State Fault Refusal :=
  s.whenIdle (.next { s.advanceSeq with ret := s.advanceSeq.seq })

end Sys2Proof.Machine
end

