-- ==== Sys2Proof/Machine/Loop.lean ====
section
/-! DEFINITION. The processing loop (spec/45_process_loop.md): the pass through the loop states of R186, PROCESS as that pass
run to its end, and the outcomes of R188, each written from its own row of R76 and R188. -/

namespace Sys2Proof.Machine

/-- The transmission of a finished report: `emit tx`, then on `fail` TransmitFailure (R186, R189). The loop state after it is
IDLE or, where it failed, STOPPED. -/
def transmit (c : Cfg) (bytes : List Byte) (answer : TxResult) (s : State) : State :=
  let sent := s.emit (.tx bytes c.dstAddr c.dstPort)
  match answer with
  | .ok => { sent with runState := .idle }
  | .fail => raiseError .transmitFailure sent

/-- The state `IDLE` of R186: stop is sampled, then a record is taken, or the engine waits (R190). -/
def phaseIdle (s : State) : State :=
  if s.ports.stop then s.endIteration .stopped
  else
    match s.ports.recIn with
    | none => s
    | some _ => { s with runState := .decoding }

/-- The state `DECODING` of R186: the length test before the decoder is invoked, then DECODE, then the validity test. -/
def phaseDecoding (c : Cfg) (r : RecIn) (s : State) : Host.Outcome State Fault Refusal :=
  if r.len ≠ recLen then .next { raiseError (.malformedRecord r.len) s with runState := .skip }
  else
    match decodeOp c r.len r.raw with
    | .done d =>
      .next { s with
        record := d
        recBuf := loadRec r.raw
        runState := if d.intValid then .encoding else .skip }
    | .raised k => .next { raiseError k s with runState := .skip }
    | .fault f => .fault f

/-- The state `ENCODING` of R186: ENCODE_HOPS, then SEQ_NEXT, then BUILD with the side-band time stamp. -/
def phaseEncoding (c : Cfg) (r : RecIn) (s : State) : Host.Outcome State Fault Refusal :=
  match encodeHopsOp s.record with
  | .raised k => .next { raiseError k s with runState := .skip }
  | .fault f => .fault f
  | .done bs =>
    let t := State.advanceSeq { s with stack := bs }
    match buildOp c t.record t.seq r.capTs32 (some t.stack) with
    | .done m => .next { t with out := m, runState := .sending }
    | .raised k => .next ((raiseError k t).endIteration .stopped)
    | .fault f => .fault f

/-- The state `SENDING` of R186: the whole of OUT is handed to the transmit collaborator (R38). -/
def phaseSending (c : Cfg) (s : State) : Host.Outcome State Fault Refusal :=
  match s.out.readBytes 0 s.record.total with
  | some bytes =>
    let t := transmit c bytes s.ports.txResult s
    .next (t.endIteration t.runState)
  | none => .fault .outUnwritten

/-- One transition of `run_state` (R186, R191), with the sample `c` of the configuration (R20; log 6). STOPPED has none, and a
state past IDLE without a record, which no step leaves behind, has none either. -/
def phase (c : Cfg) (s : State) : Host.Outcome State Fault Refusal :=
  match s.runState, s.ports.recIn with
  | .idle, _ => .next (phaseIdle s)
  | .decoding, some r => phaseDecoding c r s
  | .encoding, some r => phaseEncoding c r s
  | .sending, _ => phaseSending c s
  | .skip, _ => .next (s.endIteration .idle)
  | .stopped, _ => .next s
  | _, none => .next s

/-- Transitions until the loop is in IDLE or STOPPED again, at most `n` of them. -/
def runPhases (c : Cfg) : Nat → State → Host.Outcome State Fault Refusal
  | 0, s => .next s
  | n + 1, s =>
    match phase c s with
    | .next t => if t.runState = .idle ∨ t.runState = .stopped then .next t else runPhases c n t
    | .fault f => .fault f
    | .refused q => .refused q

/-- PROCESS (R186): one pass, enabled only in IDLE; the configuration is sampled at its start (R20). The longest pass is Idle,
Decoding, Encoding, Sending, Idle: four transitions. -/
def execProcess (s : State) : Host.Outcome State Fault Refusal :=
  s.whenIdle (runPhases s.cfg 4 s)

/-- PROCESS.STOP (R187): `stop = 1` at the top of the iteration. Where its condition does not hold it is not an outcome of the
iteration, and nothing happens (R188, "the first row whose condition holds applies"; log 15); the same in the rows below. -/
def execProcessStop (s : State) : Host.Outcome State Fault Refusal :=
  s.whenIdle <| .next <| if s.ports.stop then s.endIteration .stopped else s

/-- PROCESS.SKIP_MALFORMED (R188): `stop = 0`, `len != 128`. -/
def execProcessSkipMalformed (s : State) : Host.Outcome State Fault Refusal :=
  s.whenIdle <|
    match s.ports.recIn with
    | none => .next s
    | some r =>
      if s.ports.stop ∨ r.len = recLen then .next s
      else .next ((raiseError (.malformedRecord r.len) s).endIteration .idle)

/-- PROCESS.SKIP_NOINT (R188): `stop = 0`, `len = 128`, `int_valid = 0`. Silently: no log, no report. -/
def execProcessSkipNoint (s : State) : Host.Outcome State Fault Refusal :=
  s.whenIdle <|
    match s.ports.recIn with
    | none => .next s
    | some r =>
      if s.ports.stop ∨ r.len ≠ recLen then .next s
      else
        match decodeRec s.cfg (loadRec r.raw) with
        | none => .fault .recUnwritten
        | some d => .next (if d.intValid then s else s.endIteration .idle)

/-- PROCESS.REJECT (R188): `stop = 0`, `len = 128`, `int_valid = 1`, not `consistent(rec)`. -/
def execProcessReject (s : State) : Host.Outcome State Fault Refusal :=
  s.whenIdle <|
    match s.ports.recIn with
    | none => .next s
    | some r =>
      if s.ports.stop ∨ r.len ≠ recLen then .next s
      else
        match decodeRec s.cfg (loadRec r.raw) with
        | none => .fault .recUnwritten
        | some d =>
          if !d.intValid ∨ d.consistent then .next s
          else .next ((raiseError (.protocolInconsistency d.words d.stackBytes) s).endIteration .idle)

/-- PROCESS.REPORT (R188): `stop = 0`, `len = 128`, `int_valid = 1`, `consistent(rec)`: SEQ_NEXT, BUILD, tx; IDLE on `ok`,
STOPPED with TransmitFailure on `fail`. -/
def execProcessReport (s : State) : Host.Outcome State Fault Refusal :=
  s.whenIdle <|
    match s.ports.recIn with
    | none => .next s
    | some r =>
      if s.ports.stop ∨ r.len ≠ recLen then .next s
      else
        match decodeRec s.cfg (loadRec r.raw) with
        | none => .fault .recUnwritten
        | some d =>
          if !d.intValid ∨ !d.consistent then .next s
          else
            let t := s.advanceSeq
            match buildOp s.cfg d t.seq r.capTs32 (some (hopsBytes d)) with
            | .raised k => .next ((raiseError k t).endIteration .stopped)
            | .fault f => .fault f
            | .done m =>
              match m.readBytes 0 d.total with
              | none => .fault .outUnwritten
              | some bytes =>
                let u := transmit s.cfg bytes s.ports.txResult t
                .next (u.endIteration u.runState)

end Sys2Proof.Machine
end

