-- ==== Sys2Proof/Machine/Reset.lean ====
section
/-! DEFINITION. RESET (spec/70_reset_and_hazards.md R230). -/

namespace Sys2Proof.Machine

/-- RESET (R230): `seq` 0, `run_state` IDLE, `rec`, `stack` and the buffers without a value; in every loop state. `Cfg` is an
input and stays (R20); so do the ports and what was emitted, which are not the engine's. -/
def execReset (s : State) : Host.Outcome State Fault Refusal :=
  .next { s.endIteration .idle with seq := 0 }

end Sys2Proof.Machine
end

