-- ==== Sys2Proof/Machine/Dispatch.lean ====
section
/-! DEFINITION. One arm per operation of spec/opcode_table.json, each a direct call of its meaning. -/

namespace Sys2Proof.Machine

def exec (i : Instr) (s : State) : Host.Outcome State Fault Refusal :=
  match i with
  | .insSwid k => Sys2Proof.Machine.execInsSwid k s
  | .insPorts k => Sys2Proof.Machine.execInsPorts k s
  | .insHoplat k => Sys2Proof.Machine.execInsHoplat k s
  | .insQocc k => Sys2Proof.Machine.execInsQocc k s
  | .insIngts k => Sys2Proof.Machine.execInsIngts k s
  | .insEgts k => Sys2Proof.Machine.execInsEgts k s
  | .insQcong k => Sys2Proof.Machine.execInsQcong k s
  | .insTxutil k => Sys2Proof.Machine.execInsTxutil k s
  | .reset => Sys2Proof.Machine.execReset s
  | .process => Sys2Proof.Machine.execProcess s
  | .processStop => Sys2Proof.Machine.execProcessStop s
  | .processSkipMalformed => Sys2Proof.Machine.execProcessSkipMalformed s
  | .processSkipNoint => Sys2Proof.Machine.execProcessSkipNoint s
  | .processReject => Sys2Proof.Machine.execProcessReject s
  | .processReport => Sys2Proof.Machine.execProcessReport s
  | .decode len raw => Sys2Proof.Machine.execDecode len raw s
  | .encodeHop k bmp => Sys2Proof.Machine.execEncodeHop k bmp s
  | .encodeHops => Sys2Proof.Machine.execEncodeHops s
  | .seqNext => Sys2Proof.Machine.execSeqNext s
  | .build sequence reportTs supplied => Sys2Proof.Machine.execBuild sequence reportTs supplied s
  | .csum bs => Sys2Proof.Machine.execCsum bs s

end Sys2Proof.Machine
end

