-- ==== Sys2Proof/Decode.lean ====
section
/-! DEFINITION. From the bits that select an operation to the operation, and back (spec/30_encoding.md R56, R57, R76 and the
match and mask columns of spec/opcode_table.json). Two formats have words: COND, the 5-bit condition word of R209, and BMP,
the 16-bit instruction bitmap. The format CALL has none: those operations are invoked. -/

namespace Sys2Proof

/-- Why a byte string selects no operation. -/
inductive DecodeError where
  /-- A bitmap with no bit of 15:8 set: "bits 7:0 select nothing" (R57). -/
  | noMetricClass
  /-- Neither one byte (a condition word) nor two (a bitmap). -/
  | noSuchFormat
  deriving DecidableEq, Repr

/-- The operation a condition word `c[4:0]` = reset, stop, (len = 128), int_valid, consistent selects: the rows of format COND,
first row whose condition holds (R188, R209). DEDUCED (log 15): the outcomes' patterns partition the words 0xxxx of PROCESS,
so a word selects an outcome and never the bare PROCESS. -/
def decodeCondition (c : BitVec 5) : Instr :=
  if c.getLsbD 4 then .reset
  else if c.getLsbD 3 then .processStop
  else if !c.getLsbD 2 then .processSkipMalformed
  else if !c.getLsbD 1 then .processSkipNoint
  else if !c.getLsbD 0 then .processReject
  else .processReport

/-- The instruction a bitmap selects first: bits 15 down to 8 in descending order (R56, R139), on hop `k`; none where none of
them is set (R57). -/
def decodeBitmap (k : HopIndex) (w : BitVec 16) : Option Instr :=
  if w.getLsbD 15 then some (.insSwid k)
  else if w.getLsbD 14 then some (.insPorts k)
  else if w.getLsbD 13 then some (.insHoplat k)
  else if w.getLsbD 12 then some (.insQocc k)
  else if w.getLsbD 11 then some (.insIngts k)
  else if w.getLsbD 10 then some (.insEgts k)
  else if w.getLsbD 9 then some (.insQcong k)
  else if w.getLsbD 8 then some (.insTxutil k)
  else none

/-- The decoder, total on any bytes. One byte is a condition word in its low five bits: the bits above lie outside every mask of
the table's COND rows and are not read (DESIGN CHOICE, log 14). Two bytes are a bitmap in the record's byte order (R112); the
hop it is for is the serializer's, not the word's (R139), so it is an argument (log 13). -/
def decode (e : Endian) (k : HopIndex) (bytes : List Byte) : Except DecodeError Instr :=
  match bytes with
  | [b] => .ok (decodeCondition (b.setWidth 5))
  | [b0, b1] =>
    match decodeBitmap k (BitVec.ofNat 16 (bytesNat e [b0, b1])) with
    | some i => .ok i
    | none => .error .noMetricClass
  | _ => .error .noSuchFormat

/-- The table's `match` and `mask` of an operation that a word selects; none for the rows of format CALL. -/
def Instr.pattern (i : Instr) : Option (Nat × Nat) :=
  match i with
  | .insSwid _ => some (0x8000, 0x8000)
  | .insPorts _ => some (0x4000, 0x4000)
  | .insHoplat _ => some (0x2000, 0x2000)
  | .insQocc _ => some (0x1000, 0x1000)
  | .insIngts _ => some (0x0800, 0x0800)
  | .insEgts _ => some (0x0400, 0x0400)
  | .insQcong _ => some (0x0200, 0x0200)
  | .insTxutil _ => some (0x0100, 0x0100)
  | .reset => some (0x10, 0x10)
  | .process => some (0x00, 0x10)
  | .processStop => some (0x08, 0x18)
  | .processSkipMalformed => some (0x00, 0x1C)
  | .processSkipNoint => some (0x04, 0x1E)
  | .processReject => some (0x06, 0x1F)
  | .processReport => some (0x07, 0x1F)
  | .decode _ _ | .encodeHop _ _ | .encodeHops | .seqNext | .build _ _ _ | .csum _ => none

/-- The encoder: the bytes of a word that selects the operation, free bits zero; none where no word decodes to it (the rows of
format CALL, and PROCESS, whose words all belong to its outcomes, log 15). -/
def encode (e : Endian) (i : Instr) : Option (List Byte) :=
  match i with
  | .insSwid _ => some (natBytes e 2 0x8000)
  | .insPorts _ => some (natBytes e 2 0x4000)
  | .insHoplat _ => some (natBytes e 2 0x2000)
  | .insQocc _ => some (natBytes e 2 0x1000)
  | .insIngts _ => some (natBytes e 2 0x0800)
  | .insEgts _ => some (natBytes e 2 0x0400)
  | .insQcong _ => some (natBytes e 2 0x0200)
  | .insTxutil _ => some (natBytes e 2 0x0100)
  | .reset => some [0x10]
  | .processStop => some [0x08]
  | .processSkipMalformed => some [0x00]
  | .processSkipNoint => some [0x04]
  | .processReject => some [0x06]
  | .processReport => some [0x07]
  | .process | .decode _ _ | .encodeHop _ _ | .encodeHops | .seqNext | .build _ _ _ | .csum _ => none

/-- The hop an operation works on; hop 1, which is serialized first (R140), where it works on none. -/
def Instr.hopIndex (i : Instr) : HopIndex :=
  match i with
  | .insSwid k | .insPorts k | .insHoplat k | .insQocc k | .insIngts k | .insEgts k | .insQcong k | .insTxutil k
  | .encodeHop k _ => k
  | .reset | .process | .processStop | .processSkipMalformed | .processSkipNoint | .processReject | .processReport
  | .decode _ _ | .encodeHops | .seqNext | .build _ _ _ | .csum _ => .hop1

/-- What the decoder reads from an instruction whose bits are `w` as spec/opcode_table.json numbers them: an 8-bit word is a
condition word, a 16-bit word a bitmap, laid out as the default byte order of the record stores it (R34) and read for hop 1,
the hop that is serialized first (R140, log 13). -/
def decodeTableWord (nbits w : Nat) : Option Instr :=
  let bytes :=
    if nbits = 0 then [] else if nbits ≤ 8 then leBytes 1 w else if nbits ≤ 16 then leBytes 2 w else []
  match decode .little .hop1 bytes with
  | .ok i => some i
  | .error _ => none

end Sys2Proof
end

