-- ==== Sys2Proof/Machine/Fetch.lean ====
section
/-! DEFINITION. What selects the next operation (spec/30_encoding.md R76): the condition word of the ports (spec/60_exceptions.md
R209), a bitmap given to the serializer (spec/42_hop_stack.md R139), or a direct invocation. The engine has no program counter
and no instruction memory (R17, R41). -/

namespace Sys2Proof.Machine

/-- The record the ports present, decoded under the configuration; none where no 128-byte record is presented. -/
def presentedRecord (c : Cfg) (p : Ports) : Option CapturedRecord :=
  match p.recIn with
  | some r => if r.len = recLen then decodeRec c (loadRec r.raw) else none
  | none => none

/-- The ports' record has 128 bytes (bit 2 of the condition word). -/
def Ports.has128 (p : Ports) : Bool :=
  match p.recIn with
  | some r => r.len == recLen
  | none => false

/-- The condition word `c[4:0]` = reset, stop, (len = 128), `REC:14[2]` (int_valid), consistent(rec) (spec/opcode_table.json,
R209). The last two are 0 where no 128-byte record is presented: they are then not evaluated. -/
def conditionWord (c : Cfg) (p : Ports) : BitVec 5 :=
  let d := presentedRecord c p
  BitVec.ofBool p.reset ++ BitVec.ofBool p.stop ++ BitVec.ofBool p.has128
    ++ BitVec.ofBool (d.elim false CapturedRecord.intValid) ++ BitVec.ofBool (d.elim false CapturedRecord.consistent)

/-- The byte a condition word lies in, the bits above it zero. -/
def conditionByte (c : Cfg) (p : Ports) : Byte :=
  (conditionWord c p).setWidth 8

/-- Something is presented: reset, a stop request or a record (R76). Otherwise the engine waits (R190). -/
def Ports.present (p : Ports) : Bool :=
  p.reset || p.stop || p.recIn.isSome

/-- The highest set bit of a bitmap cleared, among bits 15 to 8: what is left to select once the first selected instruction is
taken (R139). -/
def clearFirst (w : BitVec 16) : BitVec 16 :=
  if w.getLsbD 15 then w &&& 0x7FFF#16
  else if w.getLsbD 14 then w &&& 0xBFFF#16
  else if w.getLsbD 13 then w &&& 0xDFFF#16
  else if w.getLsbD 12 then w &&& 0xEFFF#16
  else if w.getLsbD 11 then w &&& 0xF7FF#16
  else if w.getLsbD 10 then w &&& 0xFBFF#16
  else if w.getLsbD 9 then w &&& 0xFDFF#16
  else if w.getLsbD 8 then w &&& 0xFEFF#16
  else w

/-- What is still to come after the first instruction of a bitmap: the rest of the bitmap, where it selects anything. -/
def restOfBitmap (k : HopIndex) (w : BitVec 16) (rest : List Input) : List Input :=
  if selectedClasses (clearFirst w) = 0 then rest else .bitmap k (clearFirst w) :: rest

/-- What a step does first: an operation to run, with the state it runs on, or a state in which no operation is enabled. -/
inductive Fetched where
  | run (i : Instr) (s : State)
  | quiet (s : State)
  deriving DecidableEq, Repr

/-- The operation the decoder reads from bytes, or no operation where it reads none (R57, R190). -/
def fetchBytes (s : State) (k : HopIndex) (bytes : List Byte) : Fetched :=
  match decode s.cfg.recEndian k bytes with
  | .ok i => .run i s
  | .error _ => .quiet s

/-- The fetch on one input. RESET acts whatever else is presented (R208). A bitmap, and an invoked INS_* or ENCODE_HOP, is fetched
for the hop it names whatever that hop's valid flag, though within an iteration R76 selects these per valid hop only
(DESIGN CHOICE, log 24). The reset input acts in the step whose entry presents it and is no level held beyond it: a bitmap or a
change of configuration does not look at what `ports` still shows (DESIGN CHOICE, log 25). -/
def fetchInput (x : Input) (s : State) : Fetched :=
  match x with
  | .ports p =>
    let t := { s with ports := p }
    if p.present then fetchBytes t .hop1 [conditionByte s.cfg p] else .quiet t
  | .bitmap k w => fetchBytes { s with pending := restOfBitmap k w s.pending } k (natBytes s.cfg.recEndian 2 w.toNat)
  | .invoke p i =>
    let t := { s with ports := p }
    .run (if p.reset then .reset else i) t
  | .configure c => .quiet (s.reconfigure c)

/-- The fetch: the first pending input is presented; where nothing is pending, the engine waits (R190), whatever
`ports` still shows of the last entry (DESIGN CHOICE, log 25). -/
def fetch (s : State) : Fetched :=
  match s.pending with
  | [] => .quiet s
  | x :: rest => fetchInput x { s with pending := rest }

/-- A 128-byte record whose `int_valid` is the bit given and which is consistent or not as given: both hop flags 0, so it is
consistent exactly where `int_length` is 4 (R15). -/
def conditionRecord (c : Cfg) (valid consistent : Bool) : List Byte :=
  let flags : Byte := if valid then 1#8 <<< (c.layout.intValidBit : Nat) else 0
  ((List.replicate recLen (0 : Byte)).set c.layout.flags flags).set c.layout.intLength (if consistent then 4 else 0)

/-- Ports whose condition word selects what `c` selects (R209). -/
def portsFor (cfg : Cfg) (c : BitVec 5) : Ports :=
  { reset := c.getLsbD 4
    stop := c.getLsbD 3
    recIn := some
      (if c.getLsbD 2 then
        { len := recLen, raw := conditionRecord cfg (c.getLsbD 1) (c.getLsbD 0), capTs32 := 0, capIfc := 0 }
      else { len := 0, raw := [], capTs32 := 0, capIfc := 0 })
    txResult := .ok }

/-- The input that makes the next step run the operation of an instruction word as spec/opcode_table.json numbers it: a bitmap
for hop 1, or ports whose condition word is that word's (log 13, log 16). -/
def inputForWord (cfg : Cfg) (nbits w : Nat) : Option Input :=
  if nbits = 0 then none
  else if nbits ≤ 8 then some (.ports (portsFor cfg (BitVec.ofNat 5 w)))
  else if nbits ≤ 16 then some (.bitmap .hop1 (BitVec.ofNat 16 w))
  else none

end Sys2Proof.Machine
end

