-- ==== Sys2Proof/Machine/Step.lean ====
section
/-! DEFINITION. One step: what the outside presents selects an operation (Machine/Fetch.lean), and the operation runs. -/

namespace Sys2Proof.Machine

/-- One step of the engine: one operation, or one whole iteration of the loop (R7), or no change where none is enabled (R190). -/
def step (s : State) : Host.Outcome State Fault Refusal :=
  match fetch s with
  | .run i t => exec i t
  | .quiet t => .next t

/-- The state with an instruction word placed where the next step takes its operation from: as the first pending input. The
word is numbered as spec/opcode_table.json numbers it. -/
def State.withFetchWord (s : State) (nbits w : Nat) : State :=
  match inputForWord s.cfg nbits w with
  | some x => { s with pending := x :: s.pending }
  | none => s

end Sys2Proof.Machine
end

