-- ==== Sys2Proof/Safety.lean ====
section
/-! DEFINITION. What the claims speak of: the invariant of a resting engine, the transition table of spec/45_process_loop.md
R191, and the record and the report as the tables of spec/30_encoding.md lay them out octet by octet (R51 to R54, R60 to R71),
written down a second time from those tables, beside the machine that reads and writes them (R100 to R122, R150 to R164). -/

namespace Sys2Proof.Machine

/-- Between steps the engine rests in IDLE or STOPPED (R17). -/
def RunState.rests (r : RunState) : Bool :=
  r == .idle || r == .stopped

/-- The invariant of every state between steps: the loop rests (R17); both buffers are in canonical form and hold bytes only at
addresses that exist (R30); what the outside presents is well formed (R21). -/
def State.inv (s : State) : Bool :=
  s.runState.rests
    && s.recBuf.wf && s.recBuf.all (fun c => decide (c.1 < recLen))
    && s.out.wf && s.out.all (fun c => decide (c.1 < outCap))
    && s.ports.wellFormed && s.pending.all Input.wellFormed

/-- The transitions of `run_state` within an iteration: the rows of R191 but RESET's. -/
def legalTransition (a b : RunState) : Bool :=
  match a, b with
  | .idle, .stopped => true
  | .idle, .decoding => true
  | .decoding, .skip => true
  | .decoding, .encoding => true
  | .encoding, .skip => true
  | .encoding, .stopped => true
  | .encoding, .sending => true
  | .sending, .idle => true
  | .sending, .stopped => true
  | .skip, .idle => true
  | .stopped, .stopped => true
  | _, _ => false

/-- An emission on `tx`. -/
def Emission.isTx (e : Emission) : Bool :=
  match e with
  | .tx _ _ _ => true
  | .log _ => false

/-- The sequence number a report carries at `OUT:32..35` (R63); none for a log emission. -/
def Emission.stamp (e : Emission) : Option Nat :=
  match e with
  | .tx bytes _ _ => some (beNat ((bytes.drop 32).take 4))
  | .log _ => none

/-! ### Octets in wire order -/

/-- The two octets of a 16-bit number, bits 15:8 first. -/
def octets16 (v : BitVec 16) : List Byte :=
  [v.extractLsb' 8 8, v.extractLsb' 0 8]

/-- The three octets of a 24-bit number, bits 23:16 first. -/
def octets24 (v : BitVec 24) : List Byte :=
  [v.extractLsb' 16 8, v.extractLsb' 8 8, v.extractLsb' 0 8]

/-- The four octets of a 32-bit number, bits 31:24 first. -/
def octets32 (v : BitVec 32) : List Byte :=
  [v.extractLsb' 24 8, v.extractLsb' 16 8, v.extractLsb' 8 8, v.extractLsb' 0 8]

/-- The six octets of a 48-bit number, bits 47:40 first. -/
def octets48 (v : BitVec 48) : List Byte :=
  [v.extractLsb' 40 8, v.extractLsb' 32 8, v.extractLsb' 24 8, v.extractLsb' 16 8, v.extractLsb' 8 8, v.extractLsb' 0 8]

/-! ### The captured record, from R51 to R54 with the offsets written out -/

/-- The octet at `REC:a` of a record's bytes. -/
def octetAt (raw : List Byte) (a : Nat) : Byte :=
  raw.getD a 0

/-- The 16-bit number at `REC:a` and `REC:a+1` (R34). -/
def number16 (e : Endian) (raw : List Byte) (a : Nat) : BitVec 16 :=
  match e with
  | .little => octetAt raw (a + 1) ++ octetAt raw a
  | .big => octetAt raw a ++ octetAt raw (a + 1)

/-- The 32-bit number at `REC:a` to `REC:a+3` (R34). -/
def number32 (e : Endian) (raw : List Byte) (a : Nat) : BitVec 32 :=
  match e with
  | .little => octetAt raw (a + 3) ++ octetAt raw (a + 2) ++ octetAt raw (a + 1) ++ octetAt raw a
  | .big => octetAt raw a ++ octetAt raw (a + 1) ++ octetAt raw (a + 2) ++ octetAt raw (a + 3)

/-- The hop block at `REC:a` (R54), the pair words split as R53 says. -/
def hopAt (e : Endian) (raw : List Byte) (a : Nat) : HopFields :=
  { switchId := number32 e raw a
    ingressPort := number16 e raw (a + 4)
    egressPort := number16 e raw (a + 6)
    hopLatency := number32 e raw (a + 8)
    qId := (number32 e raw (a + 12)).extractLsb' 24 8
    qOcc := (number32 e raw (a + 12)).extractLsb' 0 24
    ingressTs := number32 e raw (a + 16)
    egressTs := number32 e raw (a + 20)
    qcId := (number32 e raw (a + 24)).extractLsb' 24 8
    qcVal := (number32 e raw (a + 24)).extractLsb' 0 24
    txUtil := number32 e raw (a + 28) }

/-- The record of 128 bytes in the default layout (R51, R52). -/
def recordAt (e : Endian) (raw : List Byte) : CapturedRecord :=
  { srcIp := number32 e raw 0
    dstIp := number32 e raw 4
    srcPort := number16 e raw 8
    dstPort := number16 e raw 10
    ipVer := octetAt raw 12
    l4Proto := octetAt raw 13
    intValid := (octetAt raw 14).getLsbD 2
    hop0Valid := (octetAt raw 14).getLsbD 1
    hop1Valid := (octetAt raw 14).getLsbD 0
    insCnt := (octetAt raw 14).extractLsb' 3 5
    insBitmap := number16 e raw 16
    intLength := octetAt raw 15
    hop0 := hopAt e raw 20
    hop1 := hopAt e raw 52 }

/-! ### The report packet, from R60 to R71 -/

/-- The item a bitmap bit selects (R69). -/
def wireItem (h : HopFields) (bit : Nat) : List Byte :=
  match bit with
  | 15 => octets32 h.switchId
  | 14 => octets16 h.ingressPort ++ octets16 h.egressPort
  | 13 => octets32 h.hopLatency
  | 12 => h.qId :: octets24 h.qOcc
  | 11 => octets32 h.ingressTs
  | 10 => octets32 h.egressTs
  | 9 => h.qcId :: octets24 h.qcVal
  | 8 => octets32 h.txUtil
  | _ => []

/-- One hop's group: the items of the set bits among 15:8, in descending order (R69). -/
def wireGroup (h : HopFields) (bmp : BitVec 16) : List Byte :=
  [15, 14, 13, 12, 11, 10, 9, 8].flatMap fun bit => if bmp.getLsbD bit then wireItem h bit else []

/-- The hop metadata stack: hop 1's group first, then hop 0's, each only if valid (R69). -/
def wireStack (r : CapturedRecord) : List Byte :=
  (if r.hop1Valid then wireGroup r.hop1 r.insBitmap else [])
    ++ (if r.hop0Valid then wireGroup r.hop0 r.insBitmap else [])

/-- A length field of 16 bits. -/
def lengthField (n : Nat) : List Byte :=
  octets16 (BitVec.ofNat 16 n)

/-- `OUT:0..19` (R61). -/
def wireOuterIpv4 (c : Cfg) (r : CapturedRecord) : List Byte :=
  [0x45, 0x00] ++ lengthField (93 + 4 * r.words) ++ [0, 0, 0, 0, c.outerTtl, 17, 0, 0] ++ octets32 c.srcAddr ++ octets32 c.dstAddr

/-- `OUT:20..27` (R62). -/
def wireOuterUdp (c : Cfg) (r : CapturedRecord) : List Byte :=
  octets16 c.srcPort ++ octets16 c.dstPort ++ lengthField (73 + 4 * r.words) ++ [0, 0]

/-- `OUT:28..39` (R63). -/
def wireReport (c : Cfg) (sequence reportTs : BitVec 32) : List Byte :=
  [c.trVer ++ c.trNproto, 0x20, 0x00, c.hwId ++ 0#2] ++ octets32 sequence ++ octets32 reportTs

/-- `OUT:40..53` (R64). -/
def wireEthernet (c : Cfg) : List Byte :=
  octets48 c.dstMac ++ octets48 c.srcMac ++ [0x08, 0x00]

/-- `OUT:54..73` with the checksum given (R65). -/
def wireInnerIpv4 (c : Cfg) (r : CapturedRecord) (checksum : BitVec 16) : List Byte :=
  [0x45, 0x00] ++ lengthField (39 + 4 * r.words) ++ [0, 0, 0, 0, c.innerTtl, r.l4Proto] ++ octets16 checksum
    ++ octets32 r.srcIp ++ octets32 r.dstIp

/-- `OUT:74..81` (R66). -/
def wireInnerUdp (r : CapturedRecord) : List Byte :=
  octets16 r.srcPort ++ octets16 r.dstPort ++ lengthField (19 + 4 * r.words) ++ [0, 0]

/-- `OUT:82..93` (R67, R68). -/
def wireIntHeaders (r : CapturedRecord) : List Byte :=
  [1, 0, r.intLength, 0] ++ [0, r.insCnt.setWidth 8, 0, BitVec.ofNat 8 (r.hop0Valid.toNat + r.hop1Valid.toNat)]
    ++ octets16 r.insBitmap ++ [0, 0]

/-- `OUT:78+4*L .. OUT:92+4*L`: the tail and "Hello World" (R70, R71). -/
def wireTail (r : CapturedRecord) : List Byte :=
  [r.l4Proto] ++ octets16 r.dstPort ++ [0] ++ [0x48, 0x65, 0x6C, 0x6C, 0x6F, 0x20, 0x57, 0x6F, 0x72, 0x6C, 0x64]

/-- The whole report (R60) around the stack given, the inner checksum computed over the inner IPv4 header with a zero checksum
field (R65). -/
def wirePacket (c : Cfg) (r : CapturedRecord) (sequence reportTs : BitVec 32) (stack : List Byte) : List Byte :=
  wireOuterIpv4 c r ++ wireOuterUdp c r ++ wireReport c sequence reportTs ++ wireEthernet c
    ++ wireInnerIpv4 c r (csum16 (wireInnerIpv4 c r 0)) ++ wireInnerUdp r ++ wireIntHeaders r ++ stack ++ wireTail r

/-- The sum of the 16-bit big-endian words of a byte list, an absent last byte counted as zero (R90), word by word. -/
def bigEndianWordSum (bs : List Byte) : Nat :=
  ((List.range ((bs.length + 1) / 2)).map fun i => 256 * (octetAt bs (2 * i)).toNat + (octetAt bs (2 * i + 1)).toNat).sum

/-- What folding the carries of a sum until none remains leaves (R94): 0 only for 0, otherwise the residue 1 to 65535. -/
def foldedResidue (n : Nat) : Nat :=
  if n = 0 then 0 else (n - 1) % 65535 + 1

end Sys2Proof.Machine
end

