-- ==== Sys2Proof/Certificates/Slice0/Obligations.lean ====
section
/-! DEFINITION. The statements for the provers. A statement that an operation's result is an equation `exec i s = .next …`
says that the operation completes, what it writes, and, by the record update, that every other field of the state is
unchanged. -/

open Sys2Proof Sys2Proof.Machine

/-! ### Selection and encoding -/

/-- R56, R76, R209 on words written out from the tables: the bitmap masks in both byte orders, the condition words and their
priority. That a word stands for the hop given beside it is the model's (log 13). -/
def Obligations.SelectingWordsDecodeToTheirRows : Prop :=
  decode .little .hop1 [0x00, 0x80] = .ok (.insSwid .hop1) ∧ decode .big .hop0 [0x80, 0x00] = .ok (.insSwid .hop0) ∧
  decode .big .hop0 [0x40, 0x00] = .ok (.insPorts .hop0) ∧ decode .big .hop0 [0x20, 0x00] = .ok (.insHoplat .hop0) ∧
  decode .big .hop0 [0x10, 0x00] = .ok (.insQocc .hop0) ∧ decode .big .hop0 [0x08, 0x00] = .ok (.insIngts .hop0) ∧
  decode .big .hop0 [0x04, 0x00] = .ok (.insEgts .hop0) ∧ decode .big .hop0 [0x02, 0x00] = .ok (.insQcong .hop0) ∧
  decode .big .hop0 [0x01, 0x00] = .ok (.insTxutil .hop0) ∧
  decode .little .hop1 [0x00, 0x40] = .ok (.insPorts .hop1) ∧ decode .little .hop1 [0x00, 0x20] = .ok (.insHoplat .hop1) ∧
  decode .little .hop1 [0x00, 0x10] = .ok (.insQocc .hop1) ∧ decode .little .hop1 [0x00, 0x08] = .ok (.insIngts .hop1) ∧
  decode .little .hop1 [0x00, 0x04] = .ok (.insEgts .hop1) ∧ decode .little .hop1 [0x00, 0x02] = .ok (.insQcong .hop1) ∧
  decode .little .hop1 [0x00, 0x01] = .ok (.insTxutil .hop1) ∧ decode .little .hop1 [0xA5, 0x52] = .ok (.insPorts .hop1) ∧
  decode .little .hop1 [0x1F] = .ok .reset ∧ decode .little .hop1 [0x0F] = .ok .processStop ∧
  decode .little .hop1 [0x03] = .ok .processSkipMalformed ∧ decode .little .hop1 [0x05] = .ok .processSkipNoint ∧
  decode .little .hop1 [0x06] = .ok .processReject ∧ decode .little .hop1 [0x07] = .ok .processReport

/-- R56, R76 and the table's match and mask: what the decoder reads from a word is a row whose pattern the word matches; for a
bitmap the row is that of its highest set bit, on the hop given. The hop beside the word, the bits above the condition word and
PROCESS's having no word of its own are the model's readings (log 13, log 14, log 15). -/
def Obligations.DecodedWordMatchesItsTableRow : Prop :=
  ∀ (e : Endian) (k : HopIndex) (bytes : List Byte) (i : Instr), decode e k bytes = .ok i →
    ∃ value mask, i.pattern = some (value, mask) ∧
      ((∃ b, bytes = [b] ∧ b.toNat &&& mask = value) ∨
        (bytes.length = 2 ∧ i.hopIndex = k ∧ bytesNat e bytes &&& mask = value ∧ mask ≤ bytesNat e bytes ∧
          bytesNat e bytes < 2 * mask))

/-- The encoder and the decoder agree: the word the encoder writes for an operation, in either byte order, decodes to that
operation with its hop. PROCESS and the rows of format CALL have no word (log 15). -/
def Obligations.EncodedWordsDecodeBack : Prop :=
  ∀ (e : Endian) (i : Instr) (bytes : List Byte), encode e i = some bytes → decode e i.hopIndex bytes = .ok i

/-- R57: a bitmap selects nothing exactly where none of its bits 15:8 is set, whatever bits 7:0 hold. -/
def Obligations.LowBitmapBitsSelectNothing : Prop :=
  ∀ (e : Endian) (k : HopIndex) (b0 b1 : Byte),
    decode e k [b0, b1] = .error .noMetricClass ↔ bytesNat e [b0, b1] < 256

/-- R51 to R54 with R100 to R122: DECODE of the 128 bytes that carry a record in the default layout, in either byte order, gives
that record back, with every field at every value, and REC holds the bytes. The offsets and bit positions of the default layout
are the spec's own decisions D2 to D4. -/
def Obligations.CapturedRecordRoundTrips : Prop :=
  ∀ (s : State) (r : CapturedRecord), s.runState = .idle → s.cfg.layout = {} →
    (recordImage s.cfg.recEndian r).length = 128 ∧
    ∃ m : Memory, exec (.decode 128 (recordImage s.cfg.recEndian r)) s = .next { s with record := r, recBuf := m } ∧
      ∀ a, m.read a = (recordImage s.cfg.recEndian r)[a]?

/-- The model's first step after reset on a table word runs the operation the decoder reads from it (log 16), a bitmap's for hop 1
(log 13), whose valid flag is then 0 (log 2, log 24). -/
def Obligations.PlacedWordIsFetched : Prop :=
  ∀ (nbits w : Nat) (i : Instr), decodeTableWord nbits w = some i →
    ∃ t, fetch (State.reset.withFetchWord nbits w) = .run i t

/-! ### DECODE -/

/-- R100 to R122: DECODE of any 128 bytes completes and loads REC with them (R100), in either byte order (R34) and under every
layout of the model, whose range of layouts is its own choice (log 20). Under the default layout, whose offsets and bit positions
are the spec's own decisions D2 to D4, every scalar field is the one R101 to R112 assemble and every hop field the one R113 to
R122 assemble. Nothing else changes. -/
def Obligations.DecodeAssemblesEveryField : Prop :=
  ∀ (s : State) (raw : List Byte), s.runState = .idle → raw.length = 128 →
    ∃ m : Memory, exec (.decode 128 raw) s = .next { s with record := decodeFields s.cfg raw, recBuf := m } ∧
      (∀ a, m.read a = raw[a]?) ∧
      (s.cfg.layout = {} → decodeFields s.cfg raw = recordAt s.cfg.recEndian raw)

/-- R100, R202: any other length is rejected with MalformedRecord and nothing is decoded; that a direct invocation logs the kind
is the model's reading of R201 (log 8). -/
def Obligations.DecodeRejectsEveryOtherLength : Prop :=
  ∀ (s : State) (len : Nat) (raw : List Byte), s.runState = .idle → len ≠ 128 →
    exec (.decode len raw) s = .next { s with emitted := s.emitted ++ [.log (.malformedRecord len)] }

/-- R55, R124: the reserved bytes REC:18..19 and REC:84..127 do not influence the decoded record. -/
def Obligations.DecodeIgnoresReservedBytes : Prop :=
  ∀ (s : State) (raw raw' : List Byte), s.runState = .idle → s.cfg.layout = {} → raw.length = 128 → raw'.length = 128 →
    (∀ a, a < 18 ∨ (20 ≤ a ∧ a < 84) → raw[a]? = raw'[a]?) →
    ∃ (r : CapturedRecord) (m m' : Memory),
      exec (.decode 128 raw) s = .next { s with record := r, recBuf := m } ∧
      exec (.decode 128 raw') s = .next { s with record := r, recBuf := m' }

/-! ### The hop metadata stack -/

/-- R131, R133, R135, R136, R138: the five instructions of one 32-bit field append its four octets, most significant first, and
write nothing but `stack`. That they run on a hop whose valid flag is 0 as on any other is the model's choice (log 24). -/
def Obligations.WordInstructionsAppendFourOctets : Prop :=
  ∀ (s : State) (k : HopIndex), s.runState = .idle →
    exec (.insSwid k) s = .next { s with stack := s.stack ++ octets32 (s.record.hop k).switchId } ∧
    exec (.insHoplat k) s = .next { s with stack := s.stack ++ octets32 (s.record.hop k).hopLatency } ∧
    exec (.insIngts k) s = .next { s with stack := s.stack ++ octets32 (s.record.hop k).ingressTs } ∧
    exec (.insEgts k) s = .next { s with stack := s.stack ++ octets32 (s.record.hop k).egressTs } ∧
    exec (.insTxutil k) s = .next { s with stack := s.stack ++ octets32 (s.record.hop k).txUtil }

/-- R132: INS_PORTS appends the ingress port's two octets, then the egress port's, and writes nothing but `stack`. That it
runs on a hop whose valid flag is 0 as on any other is the model's choice (log 24). -/
def Obligations.PortsInstructionAppendsIngressFirst : Prop :=
  ∀ (s : State) (k : HopIndex), s.runState = .idle →
    exec (.insPorts k) s = .next { s with
      stack := s.stack ++ (octets16 (s.record.hop k).ingressPort ++ octets16 (s.record.hop k).egressPort) }

/-- R134, R137: INS_QOCC and INS_QCONG append the id octet, then the value's three octets, and write nothing but `stack`. That
they run on a hop whose valid flag is 0 as on any other is the model's choice (log 24). -/
def Obligations.PairInstructionsAppendIdThenValue : Prop :=
  ∀ (s : State) (k : HopIndex), s.runState = .idle →
    exec (.insQocc k) s = .next { s with
      stack := s.stack ++ ((s.record.hop k).qId :: octets24 (s.record.hop k).qOcc) } ∧
    exec (.insQcong k) s = .next { s with
      stack := s.stack ++ ((s.record.hop k).qcId :: octets24 (s.record.hop k).qcVal) }

/-- R139: ENCODE_HOP appends the items of the set bits among 15:8 in descending order, exactly 4 * popcount(bmp[15:8]) bytes, and
writes nothing but `stack`. That it runs on a hop whose valid flag is 0 as on any other is
the model's choice (log 24). -/
def Obligations.EncodeHopAppendsSelectedItems : Prop :=
  ∀ (s : State) (k : HopIndex) (bmp : BitVec 16), s.runState = .idle →
    exec (.encodeHop k bmp) s = .next { s with stack := s.stack ++ wireGroup (s.record.hop k) bmp } ∧
    (wireGroup (s.record.hop k) bmp).length = 4 * popcount (bmp.extractLsb' 8 8)

/-- R142, third property, for one hop: clearing one of the bits 15:8 removes exactly the 4 bytes of its item and leaves the other
items and their order, on a hop of either validity (log 24). -/
def Obligations.ClearingABitRemovesItsItem : Prop :=
  ∀ (s : State) (k : HopIndex) (bmp : BitVec 16) (b : Nat), s.runState = .idle → 8 ≤ b → b < 16 → bmp.getLsbD b = true →
    ∃ before after : List Byte, (wireItem (s.record.hop k) b).length = 4 ∧
      before = wireGroup (s.record.hop k) (bmp &&& (BitVec.allOnes 16 <<< (b + 1))) ∧
      after = wireGroup (s.record.hop k) (bmp &&& ~~~(BitVec.allOnes 16 <<< b)) ∧
      exec (.encodeHop k bmp) s
        = .next { s with stack := s.stack ++ (before ++ wireItem (s.record.hop k) b ++ after) } ∧
      exec (.encodeHop k (bmp &&& ~~~(1#16 <<< b))) s = .next { s with stack := s.stack ++ (before ++ after) }

/-- R140, R141: on a consistent record ENCODE_HOPS leaves hop 1's group, then hop 0's, each only if valid, `4*L - 16` bytes, and
writes nothing but `stack`. -/
def Obligations.EncodeHopsSerializesHop1First : Prop :=
  ∀ s : State, s.runState = .idle → s.record.consistent = true →
    exec .encodeHops s = .next { s with stack := wireStack s.record } ∧
    (wireStack s.record).length + 16 = 4 * s.record.intLength.toNat

/-- R141, R203: on an inconsistent record ENCODE_HOPS raises ProtocolInconsistency with `int_length` and the stack length
`S = 4 * nhops * nsel`; that the stack holds what was serialized and that a direct invocation logs the kind are the model's
readings (log 8, log 11). -/
def Obligations.EncodeHopsRejectsAnInconsistentLength : Prop :=
  ∀ s : State, s.runState = .idle → (4 * (s.record.intLength.toNat : Int) - 16 ≠ (s.record.stackBytes : Int)) →
    exec .encodeHops s = .next { s with
      stack := wireStack s.record
      emitted := s.emitted ++ [.log (.protocolInconsistency s.record.intLength.toNat s.record.stackBytes)] }

/-- R13, R143: ENCODE_HOPS reads nothing but the hop flags, `int_length`, bits 15:8 of the bitmap and the fields of the valid
hops. -/
def Obligations.EncodeHopsReadsOnlyValidHops : Prop :=
  ∀ r r' : CapturedRecord, r.hop0Valid = r'.hop0Valid → r.hop1Valid = r'.hop1Valid → r.intLength = r'.intLength →
    r.insBitmap.extractLsb' 8 8 = r'.insBitmap.extractLsb' 8 8 →
    (r.hop0Valid = true → r.hop0 = r'.hop0) → (r.hop1Valid = true → r.hop1 = r'.hop1) →
    encodeHopsOp r = encodeHopsOp r'

/-- R139: a bitmap given to the serializer runs one instruction a step, and the steps together append what ENCODE_HOP appends at
once, whatever the stack holds (the one-a-step serializer is the model's, log 1, log 13, and so is the append without a bound,
log 21, and that the hop's valid flag is not looked at, log 24, and that a reset of an
earlier entry acts no more, log 25). R57: a bitmap with none of bits 15:8 set appends nothing in one step, as ENCODE_HOP of it
does. -/
def Obligations.BitmapStepsAmountToEncodeHop : Prop :=
  ∀ (s : State) (k : HopIndex) (w : BitVec 16) (rest : List Input), s.runState = .idle → s.pending = .bitmap k w :: rest →
    (0 < popcount (w.extractLsb' 8 8) →
      Host.Core.run core (popcount (w.extractLsb' 8 8)) s = exec (.encodeHop k w) { s with pending := rest }) ∧
    (popcount (w.extractLsb' 8 8) = 0 →
      step s = .next { s with pending := rest } ∧ step s = exec (.encodeHop k w) { s with pending := rest })

/-! ### SEQ_NEXT and CSUM -/

/-- R180: SEQ_NEXT writes and returns the incremented counter, wrapping from 0xFFFFFFFF to 0, and writes nothing else (`ret` is
where the model holds the returned number, log 5). -/
def Obligations.SeqNextReturnsTheIncrementedCounter : Prop :=
  ∀ s : State, s.runState = .idle →
    exec .seqNext s = .next { s with seq := s.seq + 1, ret := s.seq + 1 } ∧
    (s.seq + 1).toNat = (s.seq.toNat + 1) % 2 ^ 32

/-- R181: the i-th call after reset returns i mod 2^32, and no number is issued twice within 2^32 consecutive calls. The calls are
inputs of the model's schedule, and `ret` is where it holds the returned number (log 1, log 5). -/
def Obligations.SeqNextCallsCountWithoutDuplicates : Prop :=
  (∀ n : Nat, 1 ≤ n →
    Host.Core.run core n { State.reset with pending := List.replicate n (.invoke .quiet .seqNext) }
      = .next { State.reset with seq := BitVec.ofNat 32 n, ret := BitVec.ofNat 32 n }) ∧
  ∀ i j : Nat, i < j → j < i + 2 ^ 32 → BitVec.ofNat 32 i ≠ BitVec.ofNat 32 j

/-- R90, R94: CSUM of every byte list completes; the result is the ones' complement of the sum of the 16-bit big-endian words with
its carries folded: 0 only for an all-zero sum, otherwise the residue between 1 and 65535. No other field changes (`ret` is
where the model holds the result, log 5). -/
def Obligations.CsumIsTheOnesComplementSum : Prop :=
  ∀ (s : State) (bs : List Byte), s.runState = .idle →
    exec (.csum bs) s = .next { s with ret := BitVec.ofNat 32 (65535 - foldedResidue (bigEndianWordSum bs)) }

/-- R95: a 20-byte header with its checksum written into its zeroed checksum field has a word sum that folds to 0xFFFF, and its
checksum is 0. -/
def Obligations.ChecksumVerifiesOnceWritten : Prop :=
  ∀ h : List Byte, h.length = 20 → h[10]? = some 0 → h[11]? = some 0 →
    let h' := (h.set 10 ((csum16 h).extractLsb' 8 8)).set 11 ((csum16 h).extractLsb' 0 8)
    foldedSum h' = 0xFFFF ∧ csum16 h' = 0x0000

/-! ### BUILD -/

/-- R60 to R71 with R150 to R165: on a valid and consistent record BUILD, with its own stack or with one of the declared length
handed to it, writes the report of R60 and nothing else: every address of OUT reads as the octet of the wire format, and no
address at or beyond TOTAL = 93 + 4*L is written. Of the constants and positions of these rules many are the spec's own
decisions (D8 to D18); that the scratch `stack` stays as it was where BUILD computes its own stack is the model's (log 9). -/
def Obligations.BuildWritesTheWireFormat : Prop :=
  ∀ (s : State) (sequence reportTs : BitVec 32) (supplied : Bool), s.runState = .idle → s.record.intValid = true →
    s.record.consistent = true →
    (supplied = true → s.stack.length + 16 = 4 * s.record.intLength.toNat) →
    let packet := wirePacket s.cfg s.record sequence reportTs (if supplied then s.stack else wireStack s.record)
    packet.length = 93 + 4 * s.record.intLength.toNat ∧
    ∃ m : Memory, exec (.build sequence reportTs supplied) s = .next { s with out := m } ∧ ∀ a, m.read a = packet[a]?

/-- R150, R204: BUILD on a record with `int_valid = 0` raises PreconditionViolation before anything else: logged, STOPPED (D29), no
byte of OUT defined (that OUT then lists nothing is the model's form of it, log 7). That a direct invocation which raises keeps
`rec`, `stack` and REC is the model's reading, against the discarding of R210 (log 8). -/
def Obligations.BuildStopsOnARecordWithoutInt : Prop :=
  ∀ (s : State) (sequence reportTs : BitVec 32) (supplied : Bool), s.runState = .idle → s.record.intValid = false →
    exec (.build sequence reportTs supplied) s = .next { s with
      out := []
      emitted := s.emitted ++ [.log .preconditionViolation]
      runState := .stopped }

/-- R150, R203: BUILD on a valid but inconsistent record raises ProtocolInconsistency with L and S: no byte of OUT is defined and
the loop stays in IDLE; that a direct invocation logs the kind is the model's reading of R201 (log 8). -/
def Obligations.BuildRejectsAnInconsistentRecord : Prop :=
  ∀ (s : State) (sequence reportTs : BitVec 32) (supplied : Bool), s.runState = .idle → s.record.intValid = true →
    (4 * (s.record.intLength.toNat : Int) - 16 ≠ (s.record.stackBytes : Int)) →
    exec (.build sequence reportTs supplied) s = .next { s with
      out := []
      emitted := s.emitted ++ [.log (.protocolInconsistency s.record.intLength.toNat s.record.stackBytes)] }

/-- The model's reading of R150's "require" (log 10): a supplied stack that is not `4*L - 16` bytes long is rejected with
ProtocolInconsistency rather than written. -/
def Obligations.BuildRejectsAStackOfAnotherLength : Prop :=
  ∀ (s : State) (sequence reportTs : BitVec 32), s.runState = .idle → s.record.intValid = true →
    s.record.consistent = true → s.stack.length + 16 ≠ 4 * s.record.intLength.toNat →
    exec (.build sequence reportTs true) s = .next { s with
      out := []
      emitted := s.emitted ++ [.log (.protocolInconsistency s.record.intLength.toNat s.stack.length)] }

/-- R158: after BUILD the inner IPv4 header OUT:54..73 verifies: its checksum is 0. (BUILD computes its own stack here, log 9.) -/
def Obligations.BuiltInnerHeaderVerifies : Prop :=
  ∀ (s : State) (sequence reportTs : BitVec 32), s.runState = .idle → s.record.intValid = true → s.record.consistent = true →
    ∃ (m : Memory) (header : List Byte), exec (.build sequence reportTs false) s = .next { s with out := m } ∧
      m.readBytes 54 20 = some header ∧ csum16 header = 0x0000

/-- R166, R167, R72: in every report the four length fields and the shim's length byte agree, the three checksums that are not
computed are zero, and the stack length follows from the hop count and the bitmap on the wire. -/
def Obligations.BuiltLengthFieldsAgree : Prop :=
  ∀ (s : State) (sequence reportTs : BitVec 32), s.runState = .idle → s.record.intValid = true → s.record.consistent = true →
    ∃ (m : Memory) (hops bitmapHigh : Byte), exec (.build sequence reportTs false) s = .next { s with out := m } ∧
      m.readBytes 2 2 = some (lengthField s.record.total) ∧
      m.readBytes 24 2 = some (lengthField (s.record.total - 20)) ∧
      m.readBytes 56 2 = some (lengthField (s.record.total - 54)) ∧
      m.readBytes 78 2 = some (lengthField (s.record.total - 74)) ∧
      m.read 84 = some s.record.intLength ∧
      m.readBytes 10 2 = some [0, 0] ∧ m.readBytes 26 2 = some [0, 0] ∧ m.readBytes 80 2 = some [0, 0] ∧
      m.read 89 = some hops ∧ m.read 90 = some bitmapHigh ∧
      4 * (hops.toNat * popcount bitmapHigh) + 16 = 4 * s.record.intLength.toNat

/-- R13, R65: a report does not depend on `ip_ver` or on any field of a hop whose valid flag is 0. -/
def Obligations.ReportIgnoresIpVerAndInvalidHops : Prop :=
  ∀ (c : Cfg) (r : CapturedRecord) (sequence reportTs : BitVec 32) (v : BitVec 8) (h0 h1 : HopFields),
    (r.hop0Valid = true → h0 = r.hop0) → (r.hop1Valid = true → h1 = r.hop1) →
    buildOp c { r with ipVer := v, hop0 := h0, hop1 := h1 } sequence reportTs none
      = buildOp c r sequence reportTs none

/-! ### PROCESS and its outcomes -/

/-- R187, R188: `stop = 1` at the top of an iteration: STOPPED, nothing emitted, the counter unchanged. The scratch holds no value
after the iteration (R14), which the model writes as its blank values (log 2), with REC emptied beside it (log 18). -/
def Obligations.StopRequestStopsTheLoop : Prop :=
  ∀ s : State, s.runState = .idle → s.ports.stop = true →
    let t := { s with record := .blank, stack := [], recBuf := [], out := [], runState := .stopped }
    exec .process s = .next t ∧ exec .processStop s = .next t

/-- R188, R202: a record of any length but 128 is logged as MalformedRecord and skipped; the loop goes on. The scratch is left
blank (log 2) and REC empty (log 18). -/
def Obligations.MalformedRecordIsLoggedAndSkipped : Prop :=
  ∀ (s : State) (r : RecIn), s.runState = .idle → s.ports.stop = false → s.ports.recIn = some r → r.len ≠ 128 →
    let t := { s with
      record := .blank, stack := [], recBuf := [], out := [], runState := .idle,
      emitted := s.emitted ++ [.log (.malformedRecord r.len)] }
    exec .process s = .next t ∧ exec .processSkipMalformed s = .next t

/-- R188: a record with `int_valid = 0` is skipped silently. The scratch is left blank (log 2) and REC empty (log 18). -/
def Obligations.RecordWithoutIntIsSkippedSilently : Prop :=
  ∀ (s : State) (r : RecIn), s.runState = .idle → s.ports.stop = false → s.ports.recIn = some r → r.len = 128 →
    r.raw.length = 128 → (decodeFields s.cfg r.raw).intValid = false →
    let t := { s with record := .blank, stack := [], recBuf := [], out := [], runState := .idle }
    exec .process s = .next t ∧ exec .processSkipNoint s = .next t

/-- R188, R203: an INT-valid record whose `int_length` disagrees with its bitmap and hop flags is logged as
ProtocolInconsistency(L, S) and skipped; no report, the counter unchanged. The scratch is left blank (log 2) and REC empty
(log 18). -/
def Obligations.InconsistentRecordIsRejected : Prop :=
  ∀ (s : State) (r : RecIn), s.runState = .idle → s.ports.stop = false → s.ports.recIn = some r → r.len = 128 →
    r.raw.length = 128 → (decodeFields s.cfg r.raw).intValid = true → (decodeFields s.cfg r.raw).consistent = false →
    let d := decodeFields s.cfg r.raw
    let t := { s with
      record := .blank, stack := [], recBuf := [], out := [], runState := .idle,
      emitted := s.emitted ++ [.log (.protocolInconsistency d.intLength.toNat (4 * (d.nhops * selectedClasses d.insBitmap)))] }
    exec .process s = .next t ∧ exec .processReject s = .next t

/-- R186, R188, R189: an INT-valid consistent record is reported: the counter advances, the report of R60 with the new number and
the side-band time stamp is handed to the transmit collaborator, and the loop goes on or, where the send failed, logs
TransmitFailure and stops with the number consumed. The scratch is left blank (log 2) and REC empty (log 18). -/
def Obligations.ConsistentRecordIsReported : Prop :=
  ∀ (s : State) (r : RecIn), s.runState = .idle → s.ports.stop = false → s.ports.recIn = some r → r.len = 128 →
    r.raw.length = 128 → (decodeFields s.cfg r.raw).intValid = true → (decodeFields s.cfg r.raw).consistent = true →
    let d := decodeFields s.cfg r.raw
    let packet := wirePacket s.cfg d (s.seq + 1) r.capTs32 (wireStack d)
    let t := { s with
      seq := s.seq + 1, record := .blank, stack := [], recBuf := [], out := [],
      runState := if s.ports.txResult = .ok then .idle else .stopped,
      emitted := s.emitted ++ .tx packet s.cfg.dstAddr s.cfg.dstPort
        :: (if s.ports.txResult = .ok then [] else [.log .transmitFailure]) }
    exec .process s = .next t ∧ exec .processReport s = .next t

/-- R186 against R188: the iteration, run through the loop states of R186, is the outcome that its condition word selects, for
every state in which something is presented. That the word selects the outcome is the model's reading of the two (log 15). -/
def Obligations.ProcessIsTheOutcomeItsConditionSelects : Prop :=
  ∀ s : State, s.runState = .idle → s.ports.reset = false → s.ports.present = true →
    exec .process s = exec (decodeCondition (conditionWord s.cfg s.ports)) s

/-- The model's reading of R188 (log 15): an outcome whose condition does not hold changes nothing. -/
def Obligations.OutcomesThatDoNotApplyDoNothing : Prop :=
  ∀ (s : State) (i : Instr), s.runState = .idle → s.ports.wellFormed = true → s.ports.reset = false →
    i ∈ [Instr.processStop, .processSkipMalformed, .processSkipNoint, .processReject, .processReport] →
    (s.ports.present = true → i ≠ decodeCondition (conditionWord s.cfg s.ports)) →
    exec i s = .next s

/-- R191: every transition inside an iteration is a row of the table; a phase that makes none waits for a record and changes
nothing. -/
def Obligations.PhasesFollowTheTransitionTable : Prop :=
  ∀ (c : Cfg) (s t : State), phase c s = .next t →
    legalTransition s.runState t.runState = true ∨ (t = s ∧ s.ports.recIn = none)

/-- R190, R191, R212: in STOPPED no operation but RESET changes anything (that it then answers the same state rather than no step
is the model's form of it, log 12). -/
def Obligations.StoppedEngineChangesOnlyByReset : Prop :=
  ∀ (s : State) (i : Instr), s.runState = .stopped → i ≠ .reset → exec i s = .next s

/-- R190: with nothing presented the engine waits: PROCESS changes nothing in IDLE, and a step changes nothing but the ports it
saw (the schedule of presented inputs is the model's, log 1, and so is that with nothing pending what the ports still show of an
earlier entry acts no more, log 25). -/
def Obligations.EngineWaitsForARecord : Prop :=
  (∀ s : State, s.runState = .idle → s.ports.stop = false → s.ports.recIn = none → exec .process s = .next s) ∧
  (∀ s : State, s.pending = [] → step s = .next s) ∧
  ∀ (s : State) (p : Ports) (rest : List Input), s.pending = .ports p :: rest → p.reset = false → p.stop = false →
    p.recIn = none → step s = .next { s with ports := p, pending := rest }

/-! ### RESET and whole-machine rules -/

/-- R230: RESET in every loop state: the counter 0, IDLE, the scratch without a value (the model's blank values, log 2, and
REC emptied with them, log 18), and the configuration, the ports and what was emitted unchanged. -/
def Obligations.ResetClearsTheEngine : Prop :=
  ∀ s : State, exec .reset s = .next { s with
    seq := 0, runState := .idle, record := .blank, stack := [], recBuf := [], out := [] }

/-- R208, R209, R230: where reset is asserted a step is RESET, in every loop state and whatever else is presented with it (the
schedule of presented inputs is the model's, log 1, and so is that reset acts in the step that presents it, log 25). The blank
`rec` and `stack` and the empty REC it leaves are the model's forms of "no value" (log 2, log 18). -/
def Obligations.ResetActsWhateverIsPresented : Prop :=
  ∀ (s : State) (p : Ports) (rest : List Input), s.pending = .ports p :: rest → p.reset = true →
    step s = .next { s with
      ports := p, pending := rest, seq := 0, runState := .idle, record := .blank, stack := [], recBuf := [], out := [] }

/-- R20, R34, R41, R236: the configuration changes between steps only: a step that brings a new one takes over every parameter of it
but the byte order of the record, which stays, and changes nothing else (the schedule of presented inputs is the model's, log 1,
and so is that a byte order brought along is passed over, log 23, and that a reset of an earlier entry acts no more, log 25). -/
def Obligations.ConfigurationChangesBetweenSteps : Prop :=
  ∀ (s : State) (c : Cfg) (rest : List Input), s.pending = .configure c :: rest →
    step s = .next { s with cfg := { c with recEndian := s.cfg.recEndian }, pending := rest }

/-- R16, R17, R23: after reset the counter is 0, the loop is in IDLE and no byte of REC or OUT holds a value (log 7). -/
def Obligations.ResetStateHoldsTheResetValues : Prop :=
  State.reset.seq = 0 ∧ State.reset.runState = .idle ∧
    ∀ a, State.reset.recBuf.read a = none ∧ State.reset.out.read a = none

/-- R16, R182, R183: no operation but SEQ_NEXT, PROCESS, PROCESS.REPORT and RESET changes the counter, none but RESET makes it
anything other than one more, and where PROCESS or PROCESS.REPORT changes it, exactly one report was handed to `tx`, with the new
number in it: an iteration that reports nothing counts nothing. (An outcome invoked where its condition does not hold counts
nothing, log 15; the trace is the model's, log 4.) -/
def Obligations.CounterChangesOnlyByCounting : Prop :=
  ∀ (i : Instr) (s t : State), exec i s = .next t →
    (t.seq ≠ s.seq → i ∈ [Instr.seqNext, .process, .processReport, .reset]) ∧
    (i ≠ .reset → t.seq = s.seq ∨ t.seq = s.seq + 1) ∧
    (i ∈ [Instr.process, .processReport] → t.seq ≠ s.seq →
      ∃ es : List Emission, t.emitted = s.emitted ++ es ∧ (es.filter Emission.isTx).length = 1 ∧
        es.filterMap Emission.stamp = [t.seq.toNat])

/-- R20: no operation writes the configuration, RESET included; nor does one write what the outside presents. -/
def Obligations.NoOperationWritesTheConfiguration : Prop :=
  ∀ (i : Instr) (s t : State), exec i s = .next t → t.cfg = s.cfg ∧ t.ports = s.ports ∧ t.pending = s.pending

/-- R188, R201, R209: an operation emits at most one report and at most one error kind, after everything emitted before (the
trace is the model's, log 4). -/
def Obligations.OperationsEmitAtMostOnce : Prop :=
  ∀ (i : Instr) (s t : State), exec i s = .next t →
    ∃ es : List Emission, t.emitted = s.emitted ++ es ∧
      (es.filter Emission.isTx).length ≤ 1 ∧ (es.filter fun e => !e.isTx).length ≤ 1

/-- R39, R183: over any run of presented records and stop requests without a reset, the reports carry the numbers after the
counter's, one more each (mod 2^32), and the counter ends at the last of them: nothing else consumes a number. The schedule and
the trace are the model's (log 1, log 4). -/
def Obligations.ReportsAreNumberedConsecutively : Prop :=
  ∀ (s t : State) (ps : List Ports), s.runState.rests = true → s.pending = ps.map .ports →
    (∀ p ∈ ps, p.reset = false ∧ p.wellFormed = true) → Host.Core.run core ps.length s = .next t →
    ∃ es : List Emission, t.emitted = s.emitted ++ es ∧
      (es.filterMap Emission.stamp)
        = (List.range (es.filter Emission.isTx).length).map (fun n => (s.seq.toNat + n + 1) % 2 ^ 32) ∧
      t.seq.toNat = (s.seq.toNat + (es.filter Emission.isTx).length) % 2 ^ 32

/-- The invariant of the resting engine is kept by every step: the loop rests in IDLE or STOPPED (R17), REC and OUT are in canonical
form and hold bytes at existing addresses only (R30, R32, R33; log 7), and what is presented is well formed (R21; log 1). -/
def Obligations.InvariantIsKeptByEveryStep : Prop :=
  ∀ s t : State, s.inv = true → step s = .next t → t.inv = true

/-- The invariant holds after reset. -/
def Obligations.InvariantHoldsAfterReset : Prop :=
  State.reset.inv = true

/-- Every step of a state within the invariant completes: no fault and no refusal is reached (log 7). -/
def Obligations.EveryStepCompletes : Prop :=
  ∀ s : State, s.inv = true → ∃ t, step s = .next t

/-- A step runs the operation the decoder reads: from the condition byte of the presented ports, from the bytes of a bitmap, or
the one invoked; around it the step takes the input off `pending`, shows it on the ports and keeps the rest of a bitmap (log 1,
log 13, log 14), whatever the valid flag of the hop (log 24). A reset acts in the step whose entry presents it (log 25). R57:
where a bitmap's bytes select no operation, none of its bits 15:8 being set, the step takes the input and changes nothing else. -/
def Obligations.StepRunsTheDecodedOperation : Prop :=
  (∀ (s : State) (p : Ports) (rest : List Input) (i : Instr), s.pending = .ports p :: rest → p.present = true →
    decode s.cfg.recEndian .hop1 [conditionByte s.cfg p] = .ok i →
    step s = exec i { s with ports := p, pending := rest }) ∧
  (∀ (s : State) (k : HopIndex) (w : BitVec 16) (rest : List Input) (i : Instr), s.pending = .bitmap k w :: rest →
    decode s.cfg.recEndian k (natBytes s.cfg.recEndian 2 w.toNat) = .ok i →
    step s = exec i { s with pending := restOfBitmap k w rest }) ∧
  (∀ (s : State) (k : HopIndex) (w : BitVec 16) (rest : List Input), s.pending = .bitmap k w :: rest → w.toNat < 256 →
    step s = .next { s with pending := rest }) ∧
  (∀ (s : State) (p : Ports) (rest : List Input) (i : Instr), s.pending = .invoke p i :: rest → p.reset = false →
    step s = exec i { s with ports := p, pending := rest }) ∧
  ∀ (s : State) (p : Ports) (rest : List Input) (i : Instr), s.pending = .invoke p i :: rest → p.reset = true →
    step s = exec .reset { s with ports := p, pending := rest }

/-- R207: the code and the loop state after each error kind (the codes are the spec's decision D21). -/
def Obligations.ErrorKindsHaveTheirCodes : Prop :=
  (∀ len, (ErrorKind.malformedRecord len).code = 1 ∧ (ErrorKind.malformedRecord len).loopAfter = .idle) ∧
  (∀ l n, (ErrorKind.protocolInconsistency l n).code = 2 ∧ (ErrorKind.protocolInconsistency l n).loopAfter = .idle) ∧
  ErrorKind.preconditionViolation.code = 3 ∧ ErrorKind.preconditionViolation.loopAfter = .stopped ∧
  ErrorKind.transmitFailure.code = 4 ∧ ErrorKind.transmitFailure.loopAfter = .stopped ∧
  ErrorKind.resourceInitFailure.code = 5

/-- R34: the byte order of the captured record cannot be switched at run time: over any run of the machine, whatever is presented,
a new configuration included, `REC_ENDIAN` stays what it was. (The schedule is the model's, log 1, and so is that a change which
brings another byte order leaves it as it is, log 23.) -/
def Obligations.ByteOrderIsNeverSwitched : Prop :=
  ∀ (n : Nat) (s t : State), Host.Core.run core n s = .next t → t.cfg.recEndian = s.cfg.recEndian

/-- R33, which the spec marks as its own inference from R15: 173 bytes suffice for every report BUILD can emit:
whenever the consistency check passes, L is at most 20 and TOTAL = 93 + 4*L at most 173, and BUILD, with its own stack or with one of the declared length handed to it, completes without
writing an address at or beyond 173. -/
def Obligations.ReportsFitTheOutputBuffer : Prop :=
  (∀ r : CapturedRecord, r.consistent = true →
    r.intLength.toNat ≤ 20 ∧ r.total = 93 + 4 * r.intLength.toNat ∧ r.total ≤ 173) ∧
  ∀ (s : State) (sequence reportTs : BitVec 32) (supplied : Bool), s.runState = .idle → s.record.intValid = true →
    s.record.consistent = true → (supplied = true → s.stack.length + 16 = 4 * s.record.intLength.toNat) →
    ∃ t : State, exec (.build sequence reportTs supplied) s = .next t ∧ ∀ a, 173 ≤ a → t.out.read a = none

/-- R91, R158: the checksum BUILD stores in OUT:64..65 is `csum16` of OUT:54..73 with OUT:64..65 zero, its high byte at the lower
address, and afterwards the header's checksum is 0. -/
def Obligations.InnerChecksumIsStoredHighByteFirst : Prop :=
  ∀ (s : State) (sequence reportTs : BitVec 32) (supplied : Bool), s.runState = .idle → s.record.intValid = true →
    s.record.consistent = true → (supplied = true → s.stack.length + 16 = 4 * s.record.intLength.toNat) →
    ∃ (t : State) (header : List Byte), exec (.build sequence reportTs supplied) s = .next t ∧
      t.out.readBytes 54 20 = some header ∧
      t.out.read 64 = some ((csum16 ((header.set 10 0).set 11 0)).extractLsb' 8 8) ∧
      t.out.read 65 = some ((csum16 ((header.set 10 0).set 11 0)).extractLsb' 0 8) ∧
      csum16 header = 0x0000
end

