-- ==== Sys2Proof/Laws/Bytes.lean ====
section
/-! SUPPORT. Lengths of byte images, and the big-endian images as the octets of a bit vector. -/

namespace Sys2Proof

@[simp] theorem beBytes_length (n v : Nat) : (beBytes n v).length = n := by
  induction n with
  | zero => rfl
  | succ n ih => simp [beBytes, ih]

@[simp] theorem leBytes_length (n v : Nat) : (leBytes n v).length = n := by
  induction n generalizing v with
  | zero => rfl
  | succ n ih => simp [leBytes, ih]

@[simp] theorem natBytes_length (e : Endian) (n v : Nat) : (natBytes e n v).length = n := by
  cases e <;> simp [natBytes]

/-- The octet `i` of a number is bits `8*i+7 : 8*i`. -/
theorem ofNat_div_eq_extract {w : Nat} (v : BitVec w) (i : Nat) :
    BitVec.ofNat 8 (v.toNat / 256 ^ i) = v.extractLsb' (8 * i) 8 := by
  apply BitVec.eq_of_toNat_eq
  rw [BitVec.toNat_ofNat, BitVec.extractLsb'_toNat, Nat.shiftRight_eq_div_pow, Nat.pow_mul]

namespace Machine

theorem octets16_length (v : BitVec 16) : (octets16 v).length = 2 := rfl
theorem octets24_length (v : BitVec 24) : (octets24 v).length = 3 := rfl
theorem octets32_length (v : BitVec 32) : (octets32 v).length = 4 := rfl
theorem octets48_length (v : BitVec 48) : (octets48 v).length = 6 := rfl

theorem beBytes_octets16 (v : BitVec 16) : beBytes 2 v.toNat = octets16 v := by
  have h0 := ofNat_div_eq_extract v 0
  have h1 := ofNat_div_eq_extract v 1
  simp only [beBytes, octets16]
  rw [h0, h1]

theorem beBytes_octets24 (v : BitVec 24) : beBytes 3 v.toNat = octets24 v := by
  simp only [beBytes, octets24, ofNat_div_eq_extract]

theorem beBytes_octets32 (v : BitVec 32) : beBytes 4 v.toNat = octets32 v := by
  simp only [beBytes, octets32, ofNat_div_eq_extract]

theorem beBytes_octets48 (v : BitVec 48) : beBytes 6 v.toNat = octets48 v := by
  simp only [beBytes, octets48, ofNat_div_eq_extract]

theorem beBytes_octet (v : BitVec 8) : beBytes 1 v.toNat = [v] := by
  simp [beBytes]

/-- The number of four octets in wire order. -/
theorem beNat_octets32 (v : BitVec 32) : beNat (octets32 v) = v.toNat := by
  have := v.isLt
  simp only [octets32, beNat, List.length_cons, List.length_nil, BitVec.extractLsb'_toNat, Nat.shiftRight_eq_div_pow]
  omega

end Machine
end Sys2Proof
end

