-- ==== Sys2Proof/Laws/Checksum.lean ====
section
/-! SUPPORT. The checksum: folding carries leaves the residue of R94, and the sum is that of the 16-bit words of R90. -/

namespace Sys2Proof.Machine

theorem foldedResidue_small (n : Nat) (h : n < 65536) : foldedResidue n = n := by
  unfold foldedResidue; split <;> omega

/-- Folding with enough fuel leaves the residue. -/
theorem foldCarry_eq (f n : Nat) (h : n ≤ f) : foldCarry f n = foldedResidue n := by
  induction f generalizing n with
  | zero => simp [foldCarry, show n = 0 by omega, foldedResidue]
  | succ f ih =>
    unfold foldCarry
    split
    · rename_i h1
      rw [ih _ (by omega)]
      unfold foldedResidue
      rw [if_neg (by omega), if_neg (by omega)]
      omega
    · rw [foldedResidue_small _ (by omega)]

theorem foldedSum_eq (bs : List Byte) : foldedSum bs = foldedResidue (wordSum (padEven bs)) := foldCarry_eq _ _ le_rfl

theorem octetAt_cons2 (a b : Byte) (t : List Byte) (n : Nat) : octetAt (a :: b :: t) (n + 2) = octetAt t n := by
  simp [octetAt, List.getD_eq_getElem?_getD]

theorem bigEndianWordSum_cons_cons (a b : Byte) (t : List Byte) : bigEndianWordSum (a :: b :: t) = (a.toNat * 256 + b.toNat) + bigEndianWordSum t := by
  unfold bigEndianWordSum
  have : ((a :: b :: t).length + 1) / 2 = (t.length + 1)/2 + 1 := by simp; omega
  rw [this, List.range_succ_eq_map, List.map_cons, List.sum_cons, List.map_map]
  congr 1
  simp [octetAt]; omega

/-- The sum that CSUM walks is the sum over the words. -/
theorem wordSum_padEven : ∀ bs : List Byte, wordSum (padEven bs) = bigEndianWordSum bs
  | [] => rfl
  | [a] => by simp [padEven, wordSum, bigEndianWordSum, octetAt, Nat.mul_comm]
  | a :: b :: t => by
    rw [bigEndianWordSum_cons_cons, ← wordSum_padEven t]
    unfold padEven
    have : (a :: b :: t).length % 2 = t.length % 2 := by simp only [List.length_cons]; omega
    rw [this]
    split <;> rfl

theorem foldedResidue_lt (n : Nat) : foldedResidue n < 65536 := by
  unfold foldedResidue; split <;> omega

/-- What CSUM answers. -/
theorem csum16_toNat (bs : List Byte) : (csum16 bs).toNat = 65535 - foldedResidue (bigEndianWordSum bs) := by
  have := foldedResidue_lt (bigEndianWordSum bs)
  unfold csum16
  rw [foldedSum_eq, wordSum_padEven, BitVec.toNat_not, BitVec.toNat_ofNat]
  omega

/-- A sum with its own ones' complement added folds to 0xFFFF. -/
theorem foldedResidue_add_complement (x : Nat) (S : Nat) (hx : x = 65535 - foldedResidue S) : foldedResidue (S + x) = 65535 := by
  unfold foldedResidue at *
  split at hx
  · subst hx; simp_all
  · rw [if_neg (by omega)]; omega

theorem toNat_octets16 (v : BitVec 16) : (v.extractLsb' 8 8).toNat * 256 + (v.extractLsb' 0 8).toNat = v.toNat := by
  have := v.isLt
  simp [BitVec.extractLsb'_toNat, Nat.shiftRight_eq_div_pow]; omega

end Sys2Proof.Machine
end

