-- ==== Sys2Proof/Laws/HopStack.lean ====
section
/-! SUPPORT. The hop stack serializer as the wire format of R69: what each hop appends, the stack of a record, and ENCODE_HOPS once. -/

namespace Sys2Proof.Machine

/-- ENCODE_HOP serializes the group of R69. -/
theorem hopItems_eq_wireGroup (h : HopFields) (bmp : BitVec 16) : hopItems h bmp = wireGroup h bmp := by
  simp [hopItems, wireGroup, wireItem, itemSwid, itemPorts, itemHoplat, itemQocc, itemIngts, itemEgts, itemQcong, itemTxutil,
    beBytes_octets16, beBytes_octets24, beBytes_octets32, beBytes_octet]

theorem popcount_byte (v : BitVec 8) : popcount v = (v.getLsbD 0).toNat + (v.getLsbD 1).toNat + (v.getLsbD 2).toNat + (v.getLsbD 3).toNat
   + (v.getLsbD 4).toNat + (v.getLsbD 5).toNat + (v.getLsbD 6).toNat + (v.getLsbD 7).toNat := by
  unfold popcount
  have : List.range 8 = [0,1,2,3,4,5,6,7] := rfl
  rw [this]
  simp only [List.filter_cons, List.filter_nil]
  cases v.getLsbD 0 <;> cases v.getLsbD 1 <;> cases v.getLsbD 2 <;> cases v.getLsbD 3 <;> cases v.getLsbD 4 <;> cases v.getLsbD 5 <;> cases v.getLsbD 6 <;> cases v.getLsbD 7 <;> rfl

theorem selectedClasses_eq (bmp : BitVec 16) : selectedClasses bmp = (bmp.getLsbD 8).toNat + (bmp.getLsbD 9).toNat + (bmp.getLsbD 10).toNat + (bmp.getLsbD 11).toNat
   + (bmp.getLsbD 12).toNat + (bmp.getLsbD 13).toNat + (bmp.getLsbD 14).toNat + (bmp.getLsbD 15).toNat := by
  simp [selectedClasses, popcount_byte]

theorem length_if_nil (b : Bool) (l : List Byte) : (if b then l else []).length = b.toNat * l.length := by cases b <;> simp

/-- A hop contributes four bytes for each selected class (R139). -/
theorem wireGroup_length (h : HopFields) (bmp : BitVec 16) : (wireGroup h bmp).length = 4 * selectedClasses bmp := by
  rw [selectedClasses_eq]
  simp only [wireGroup, List.flatMap_cons, List.flatMap_nil, List.length_append, length_if_nil, wireItem, octets16_length, octets24_length, octets32_length, List.length_cons, List.length_nil]
  omega

/-- ENCODE_HOPS serializes the stack of R69. -/
theorem hopsBytes_eq_wireStack (r : CapturedRecord) : hopsBytes r = wireStack r := by
  simp [hopsBytes, wireStack, hopItems_eq_wireGroup]

/-- The length of the stack is S (R141). -/
theorem wireStack_length (r : CapturedRecord) : (wireStack r).length = r.stackBytes := by
  simp only [wireStack, List.length_append, length_if_nil, wireGroup_length, CapturedRecord.stackBytes, CapturedRecord.nhops, CapturedRecord.hopBytes]
  ring

/-- The length test over the integers, without subtraction. -/
theorem declares_iff (r : CapturedRecord) (n : Nat) : r.declares n = true ↔ n + 16 = 4 * r.intLength.toNat := by
  simp [CapturedRecord.declares, CapturedRecord.words]; omega

theorem consistent_eq_false (r : CapturedRecord) (h : (4 * (r.intLength.toNat : Int) - 16 ≠ (r.stackBytes : Int))) : r.consistent = false := by
  simpa [CapturedRecord.consistent, CapturedRecord.declares, CapturedRecord.words] using h

/-- ENCODE_HOPS on a consistent record. -/
theorem encodeHopsOp_consistent (r : CapturedRecord) (h : r.consistent = true) : encodeHopsOp r = .done (wireStack r) := by
  rw [CapturedRecord.consistent] at h
  simp [encodeHopsOp, hopsBytes_eq_wireStack, wireStack_length, h]

/-- ENCODE_HOPS on an inconsistent record. -/
theorem encodeHopsOp_inconsistent (r : CapturedRecord) (h : r.consistent = false) : encodeHopsOp r = .raised (.protocolInconsistency r.intLength.toNat r.stackBytes) := by
  rw [CapturedRecord.consistent] at h
  simp [encodeHopsOp, hopsBytes_eq_wireStack, wireStack_length, h, CapturedRecord.words]

theorem wireStack_length_of_consistent (r : CapturedRecord) (hc : r.consistent = true) : (wireStack r).length + 16 = 4 * r.words := by
  rw [wireStack_length]; exact (declares_iff _ _).1 hc

theorem nhops_lt_three (r : CapturedRecord) : r.nhops < 3 := by
  unfold CapturedRecord.nhops; cases r.hop0Valid <;> cases r.hop1Valid <;> decide

theorem words_lt_256 (r : CapturedRecord) : r.words < 256 := r.intLength.isLt

theorem getLsbD_eq_of_high_byte {a b : BitVec 16} (h : a.extractLsb' 8 8 = b.extractLsb' 8 8) (i : Nat) (h8 : 8 ≤ i) (h16 : i < 16) : a.getLsbD i = b.getLsbD i := by
  have := congrArg (fun v => BitVec.getLsbD v (i-8)) h
  simp only [BitVec.getLsbD_extractLsb'] at this
  have e : 8 + (i - 8) = i := by omega
  rw [e] at this
  have d : i - 8 < 8 := by omega
  simpa [d] using this

end Sys2Proof.Machine
end

