-- ==== Sys2Proof/Laws/Memory.lean ====
section
/-! SUPPORT. The laws of the two buffers: read after write, what a run of writes leaves unchanged, the canonical form and the
address range kept by every memory operation. -/

namespace Sys2Proof.Machine

@[simp] theorem Memory.read_nil (a : Nat) : Memory.read [] a = none := rfl

/-- Reading after one write: the byte written there, every other address as before. -/
theorem Memory.read_write (m : Memory) (a x : Nat) (b : Byte) :
    Memory.read (Memory.write m a b) x = if x = a then some b else Memory.read m x := by
  induction m with
  | nil => simp [Memory.write, Memory.read]
  | cons c m ih =>
    unfold Memory.write
    split
    · simp [Memory.read]
    · split
      · rename_i h1 h2
        subst h2
        by_cases hx : x = c.1 <;> simp [Memory.read, hx]
      · rename_i h1 h2
        by_cases hx : x = c.1
        · simp [Memory.read, hx]
          exact fun h => absurd h.symm h2
        · simp [Memory.read, hx, ih]

/-- Reading after a run of bytes was written from `a` on. -/
theorem Memory.read_writeBytes (bs : List Byte) (m : Memory) (a x : Nat) :
    Memory.read (Memory.writeBytes m a bs) x =
      if a ≤ x ∧ x < a + bs.length then bs[x - a]? else Memory.read m x := by
  induction bs generalizing m a with
  | nil => simp [Memory.writeBytes]
  | cons b bs ih =>
    rw [Memory.writeBytes, ih, Memory.read_write]
    simp only [List.length_cons]
    by_cases h1 : a + 1 ≤ x ∧ x < a + 1 + bs.length
    · rw [if_pos h1, if_pos (by omega)]
      obtain ⟨k, rfl⟩ : ∃ k, x = a + 1 + k := ⟨x - (a + 1), by omega⟩
      have e1 : a + 1 + k - (a + 1) = k := by omega
      have e2 : a + 1 + k - a = k + 1 := by omega
      rw [e1, e2, List.getElem?_cons_succ]
    · rw [if_neg h1]
      by_cases h2 : x = a
      · subst h2; simp
      · rw [if_neg h2, if_neg (by omega)]

/-- Writing nothing changes nothing. -/
@[simp] theorem Memory.writeBytes_nil (m : Memory) (a : Nat) : Memory.writeBytes m a [] = m := rfl

@[simp] theorem Memory.applyWrites_nil (m : Memory) : Memory.applyWrites m [] = m := rfl

@[simp] theorem Memory.applyWrites_cons (m : Memory) (w : Nat × List Byte) (ws : List (Nat × List Byte)) :
    Memory.applyWrites m (w :: ws) = Memory.applyWrites (Memory.writeBytes m w.1 w.2) ws := rfl

theorem Memory.applyWrites_append (m : Memory) (v w : List (Nat × List Byte)) :
    Memory.applyWrites m (v ++ w) = Memory.applyWrites (Memory.applyWrites m v) w := by
  simp [Memory.applyWrites]

/-- When `readBytes` answers, and with what. -/
theorem Memory.readBytes_eq_some (m : Memory) (a n : Nat) (bs : List Byte) :
    Memory.readBytes m a n = some bs ↔ bs.length = n ∧ ∀ i < n, Memory.read m (a + i) = bs[i]? := by
  induction n generalizing a bs with
  | zero => simp [Memory.readBytes, eq_comm (b := bs)]
  | succ n ih =>
    unfold Memory.readBytes
    constructor
    · intro h
      split at h
      · rename_i b t hb ht
        cases h
        obtain ⟨hl, hr⟩ := (ih (a + 1) t).1 ht
        refine ⟨by simp [hl], fun i hi => ?_⟩
        cases i with
        | zero => simpa using hb
        | succ i =>
          have := hr i (by omega)
          rw [List.getElem?_cons_succ, ← this]
          congr 1; omega
      · cases h
    · rintro ⟨hl, hr⟩
      obtain ⟨b, t, rfl⟩ : ∃ b t, bs = b :: t := by
        cases bs with
        | nil => simp at hl
        | cons b t => exact ⟨b, t, rfl⟩
      have hb : Memory.read m a = some b := by simpa using hr 0 (by omega)
      have ht : Memory.readBytes m (a + 1) n = some t := by
        refine (ih (a + 1) t).2 ⟨by simpa using hl, fun i hi => ?_⟩
        have := hr (i + 1) (by omega)
        rw [List.getElem?_cons_succ] at this
        rw [← this]; congr 1; omega
      simp [hb, ht]

/-- The first address of a written memory is the smaller of the old first address and the one written. -/
theorem Memory.head_write (m : Memory) (a : Nat) (b : Byte) :
    ∃ c t, Memory.write m a b = c :: t ∧ (c.1 = a ∨ ∃ d u, m = d :: u ∧ c.1 = d.1) := by
  cases m with
  | nil => exact ⟨(a, b), [], rfl, .inl rfl⟩
  | cons d u =>
    unfold Memory.write
    split
    · exact ⟨_, _, rfl, .inl rfl⟩
    · split
      · exact ⟨_, _, rfl, .inl rfl⟩
      · exact ⟨d, _, rfl, .inr ⟨d, u, rfl, rfl⟩⟩

theorem Memory.wf_cons_cons (c d : Host.Cell) (m : Memory) :
    Memory.wf (c :: d :: m) = true ↔ c.1 < d.1 ∧ Memory.wf (d :: m) = true := by
  simp [Memory.wf]

theorem Memory.wf_tail {c : Host.Cell} {m : Memory} (h : Memory.wf (c :: m) = true) : Memory.wf m = true := by
  cases m with
  | nil => rfl
  | cons d m => exact ((Memory.wf_cons_cons c d m).1 h).2

/-- A write keeps the canonical form. -/
theorem Memory.wf_write (m : Memory) (a : Nat) (b : Byte) (h : Memory.wf m = true) :
    Memory.wf (Memory.write m a b) = true := by
  induction m with
  | nil => rfl
  | cons c m ih =>
    unfold Memory.write
    split
    · exact (Memory.wf_cons_cons _ _ _).2 ⟨by assumption, h⟩
    · split
      · rename_i h1 h2
        cases m with
        | nil => rfl
        | cons d m =>
          have := (Memory.wf_cons_cons _ _ _).1 h
          exact (Memory.wf_cons_cons _ _ _).2 ⟨by simpa [h2] using this.1, this.2⟩
      · rename_i h1 h2
        obtain ⟨d, t, he, hd⟩ := Memory.head_write m a b
        have hw := ih (Memory.wf_tail h)
        rw [he] at hw ⊢
        refine (Memory.wf_cons_cons _ _ _).2 ⟨?_, hw⟩
        rcases hd with hd | ⟨e, u, rfl, hd⟩
        · omega
        · have := ((Memory.wf_cons_cons _ _ _).1 h).1
          omega

theorem Memory.wf_writeBytes (bs : List Byte) (m : Memory) (a : Nat) (h : Memory.wf m = true) :
    Memory.wf (Memory.writeBytes m a bs) = true := by
  induction bs generalizing m a with
  | nil => exact h
  | cons b bs ih => exact ih _ _ (Memory.wf_write m a b h)

theorem Memory.wf_applyWrites (ws : List (Nat × List Byte)) (m : Memory) (h : Memory.wf m = true) :
    Memory.wf (Memory.applyWrites m ws) = true := by
  induction ws generalizing m with
  | nil => exact h
  | cons w ws ih => exact ih _ (Memory.wf_writeBytes _ _ _ h)

/-- The cells of a written memory: the one written, or an old one. -/
theorem Memory.mem_write {m : Memory} {a : Nat} {b : Byte} {c : Host.Cell} (h : c ∈ Memory.write m a b) :
    c.1 = a ∨ c ∈ m := by
  induction m with
  | nil => simp [Memory.write] at h; simp [h]
  | cons d m ih =>
    unfold Memory.write at h
    split at h
    · rcases List.mem_cons.1 h with rfl | h
      · exact .inl rfl
      · exact .inr h
    · split at h
      · rcases List.mem_cons.1 h with rfl | h
        · exact .inl rfl
        · exact .inr (List.mem_cons_of_mem _ h)
      · rcases List.mem_cons.1 h with rfl | h
        · exact .inr List.mem_cons_self
        · exact (ih h).imp id (List.mem_cons_of_mem _)

/-- Writing below a bound keeps every address below it. -/
theorem Memory.bound_writeBytes (n : Nat) (bs : List Byte) (m : Memory) (a : Nat) (h : ∀ c ∈ m, c.1 < n)
    (hb : bs = [] ∨ a + bs.length ≤ n) : ∀ c ∈ Memory.writeBytes m a bs, c.1 < n := by
  induction bs generalizing m a with
  | nil => exact h
  | cons b bs ih =>
    have hb' : a + (bs.length + 1) ≤ n := by simpa using hb
    refine ih _ _ (fun c hc => ?_) (.inr (by omega))
    rcases Memory.mem_write hc with rfl | hc
    · omega
    · exact h c hc

theorem Memory.bound_applyWrites (n : Nat) (ws : List (Nat × List Byte)) (m : Memory) (h : ∀ c ∈ m, c.1 < n)
    (hb : ∀ w ∈ ws, w.2 = [] ∨ w.1 + w.2.length ≤ n) : ∀ c ∈ Memory.applyWrites m ws, c.1 < n := by
  induction ws generalizing m with
  | nil => exact h
  | cons w ws ih =>
    exact ih _ (Memory.bound_writeBytes n _ _ _ h (hb w List.mem_cons_self))
      fun v hv => hb v (List.mem_cons_of_mem _ hv)

theorem loadRec_wf (raw : List Byte) : Memory.wf (loadRec raw) = true :=
  Memory.wf_writeBytes _ _ _ rfl

/-- REC has 128 addresses. -/
theorem loadRec_bound (raw : List Byte) : ∀ c ∈ loadRec raw, c.1 < recLen := by
  refine Memory.bound_writeBytes _ _ _ _ (by simp) (.inr ?_)
  simp

/-- Byte `i` of the delivered buffer is `REC:i` (R31). -/
theorem loadRec_read (raw : List Byte) (a : Nat) (h : raw.length = recLen) : (loadRec raw).read a = raw[a]? := by
  have ht : raw.take recLen = raw := List.take_of_length_le (le_of_eq h)
  rw [loadRec, ht, Memory.read_writeBytes]
  split
  · simp
  · rw [List.getElem?_eq_none (by omega)]; rfl

theorem loadRec_readBytes (raw : List Byte) (h : raw.length = recLen) : (loadRec raw).readBytes 0 recLen = some raw := by
  refine (Memory.readBytes_eq_some _ _ _ _).2 ⟨h, fun i hi => ?_⟩
  rw [Nat.zero_add, loadRec_read raw i h]

/-- DECODE of a 128-byte record always answers, with the record of its bytes. -/
theorem decodeRec_loadRec (c : Cfg) (raw : List Byte) (h : raw.length = recLen) :
    decodeRec c (loadRec raw) = some (decodeFields c raw) := by
  simp [decodeRec, loadRec_readBytes raw h]

/-- DECODE on a well-formed operand: the error kind of R100, or the record. -/
theorem decodeOp_wellFormed (c : Cfg) (len : Nat) (raw : List Byte) (h : raw.length = len) :
    decodeOp c len raw = if len ≠ recLen then .raised (.malformedRecord len) else .done (decodeFields c raw) := by
  unfold decodeOp
  split
  · rfl
  · rename_i hl
    rw [decodeRec_loadRec c raw (by omega)]

end Sys2Proof.Machine
end

