-- ==== Sys2Proof/Laws/Builder.lean ====
section
/-! SUPPORT. BUILD: writes that follow one another leave their bytes joined; what OUT reads before and after the checksum; BUILD once. -/

namespace Sys2Proof.Machine

/-- Writes that lie one after another from an address on. -/
def Contiguous : Nat → List (Nat × List Byte) → Prop
  | _, [] => True
  | a, w :: ws => w.1 = a ∧ Contiguous (a + w.2.length) ws

/-- Reading after writes that lie one after another: their bytes joined, every other address as before. -/
theorem read_applyWrites_of_contiguous (ws : List (Nat × List Byte)) (m : Memory) (a x : Nat) (h : Contiguous a ws) :
   (m.applyWrites ws).read x = if a ≤ x ∧ x < a + (ws.flatMap (·.2)).length then (ws.flatMap (·.2))[x - a]? else m.read x := by
  induction ws generalizing m a with
  | nil => simp
  | cons w ws ih =>
    obtain ⟨hw, hc⟩ := h
    rw [Memory.applyWrites_cons, ih _ _ hc, Memory.read_writeBytes, hw]
    simp only [List.flatMap_cons, List.length_append]
    by_cases h1 : x < a
    · rw [if_neg (by omega), if_neg (by omega), if_neg (by omega)]
    by_cases h2 : x < a + w.2.length
    · rw [if_neg (by omega), if_pos (by omega), if_pos (by omega), List.getElem?_append_left (by omega)]
    by_cases h3 : x < a + w.2.length + (ws.flatMap (·.2)).length
    · rw [if_pos (by omega), if_pos (by omega), List.getElem?_append_right (by omega)]
      congr 1; omega
    · rw [if_neg (by omega), if_neg (by omega), if_neg (by omega)]

theorem beBytes_lengthField (n : Nat) (h : n < 65536) : beBytes 2 n = lengthField n := by
  have := beBytes_octets16 (BitVec.ofNat 16 n)
  rw [BitVec.toNat_ofNat, Nat.mod_eq_of_lt h] at this
  exact this

/-- The writes up to the inner IPv4 header (R152 to R157). -/
def writesBeforeChecksum (c : Cfg) (r : CapturedRecord) (sq ts : BitVec 32) := (writesOuterIpv4 c r.total ++ writesOuterUdp c r.total ++ writesReportWord c ++ writesReportStamp sq ts
      ++ writesEthernet c ++ writesInnerIpv4 c r r.total)

theorem total_def (r : CapturedRecord) : r.total = 93 + 4 * r.words := rfl

theorem writesBeforeChecksum_bytes (c : Cfg) (r : CapturedRecord) (sq ts : BitVec 32) : (writesBeforeChecksum c r sq ts).flatMap (·.2) = wireOuterIpv4 c r ++ wireOuterUdp c r ++ wireReport c sq ts ++ wireEthernet c ++ wireInnerIpv4 c r 0 := by
  have := words_lt_256 r
  unfold writesBeforeChecksum writesOuterIpv4 writesOuterUdp writesReportWord writesReportStamp writesEthernet writesInnerIpv4 memWrite
  simp only [List.flatMap_append, List.flatMap_cons, List.flatMap_nil, List.append_nil, total_def]
  have e1 : 93 + 4 * r.words - 20 = 73 + 4 * r.words := by omega
  have e2 : 93 + 4 * r.words - 54 = 39 + 4 * r.words := by omega
  rw [e1, e2, beBytes_lengthField (93 + 4 * r.words) (by omega), beBytes_lengthField (73 + 4 * r.words) (by omega), beBytes_lengthField (39 + 4 * r.words) (by omega)]
  simp only [beBytes_octets16, beBytes_octets32, beBytes_octets48, beBytes_octet]
  unfold wireOuterIpv4 wireOuterUdp wireReport wireEthernet wireInnerIpv4
  simp only [List.append_assoc]
  rfl

theorem writesBeforeChecksum_contiguous (c : Cfg) (r : CapturedRecord) (sq ts : BitVec 32) : Contiguous 0 (writesBeforeChecksum c r sq ts) := by
  simp [writesBeforeChecksum, writesOuterIpv4, writesOuterUdp, writesReportWord, writesReportStamp, writesEthernet, writesInnerIpv4, memWrite, Contiguous]

theorem writesAfterChecksum_bytes (r : CapturedRecord) (st : List Byte) : (writesAfterChecksum r st).flatMap (·.2) = wireInnerUdp r ++ wireIntHeaders r ++ st ++ wireTail r := by
  have := words_lt_256 r
  unfold writesAfterChecksum writesInnerUdp writesShim writesIntHeader writesStack writesTail writesPayload memWrite
  simp only [List.flatMap_append, List.flatMap_cons, List.flatMap_nil, List.append_nil, total_def]
  have e1 : 93 + 4 * r.words - 74 = 19 + 4 * r.words := by omega
  rw [e1, beBytes_lengthField (19 + 4 * r.words) (by omega)]
  simp only [beBytes_octets16, beBytes_octet]
  unfold wireInnerUdp wireIntHeaders wireTail
  simp only [List.append_assoc]
  have h5 : beBytes 1 r.insCnt.toNat = [r.insCnt.setWidth 8] := by simp [beBytes]
  have h6 : beBytes 1 r.nhops = [BitVec.ofNat 8 (r.hop0Valid.toNat + r.hop1Valid.toNat)] := by simp [beBytes, CapturedRecord.nhops]
  rw [h5, h6]
  rfl

theorem writesAfterChecksum_contiguous (r : CapturedRecord) (st : List Byte) (h : st.length + 16 = 4 * r.words) : Contiguous 74 (writesAfterChecksum r st) := by
  simp [writesAfterChecksum, writesInnerUdp, writesShim, writesIntHeader, writesStack, writesTail, writesPayload, memWrite, Contiguous, CapturedRecord.tailOffset, CapturedRecord.payloadOffset]
  omega

theorem wire_lengths (c : Cfg) (r : CapturedRecord) (sq ts : BitVec 32) (x : BitVec 16) : (wireOuterIpv4 c r).length = 20 ∧ (wireOuterUdp c r).length = 8 ∧ (wireReport c sq ts).length = 12 ∧ (wireEthernet c).length = 14 ∧ (wireInnerIpv4 c r x).length = 20 ∧ (wireInnerUdp r).length = 8 ∧ (wireIntHeaders r).length = 12 ∧ (wireTail r).length = 15 := by
  simp [wireOuterIpv4, wireOuterUdp, wireReport, wireEthernet, wireInnerIpv4, wireInnerUdp, wireIntHeaders, wireTail, lengthField, octets16_length, octets32_length, octets48_length]

/-- `OUT:0..53`. -/
def wireBeforeInner (c : Cfg) (r : CapturedRecord) (sq ts : BitVec 32) : List Byte := wireOuterIpv4 c r ++ wireOuterUdp c r ++ wireReport c sq ts ++ wireEthernet c

theorem wireBeforeInner_length (c r sq ts) : (wireBeforeInner c r sq ts).length = 54 := by
  have := wire_lengths c r sq ts 0
  simp [wireBeforeInner, this]

/-- OUT before the checksum is filled in. -/
theorem outBeforeChecksum_read (c : Cfg) (r : CapturedRecord) (sq ts : BitVec 32) (x : Nat) : (outBeforeChecksum c r sq ts).read x = (wireBeforeInner c r sq ts ++ wireInnerIpv4 c r 0)[x]? := by
  have h := read_applyWrites_of_contiguous _ [] 0 x (writesBeforeChecksum_contiguous c r sq ts)
  rw [writesBeforeChecksum_bytes] at h
  have h' : (outBeforeChecksum c r sq ts) = Memory.applyWrites [] (writesBeforeChecksum c r sq ts) := rfl
  rw [h', h]
  simp only [Nat.zero_add, Nat.sub_zero, Nat.zero_le, true_and, Memory.read_nil]
  change (if x < (wireBeforeInner c r sq ts ++ wireInnerIpv4 c r 0).length then (wireBeforeInner c r sq ts ++ wireInnerIpv4 c r 0)[x]? else none) = (wireBeforeInner c r sq ts ++ wireInnerIpv4 c r 0)[x]?
  by_cases hx : x < (wireBeforeInner c r sq ts ++ wireInnerIpv4 c r 0).length
  · rw [if_pos hx]
  · rw [if_neg hx, List.getElem?_eq_none (by omega)]

/-- The 20 bytes the checksum is computed over (R158). -/
theorem outBeforeChecksum_header (c : Cfg) (r : CapturedRecord) (sq ts : BitVec 32) : (outBeforeChecksum c r sq ts).readBytes 54 20 = some (wireInnerIpv4 c r 0) := by
  refine (Memory.readBytes_eq_some _ _ _ _).2 ⟨(wire_lengths c r sq ts 0).2.2.2.2.1, fun i hi => ?_⟩
  rw [outBeforeChecksum_read, List.getElem?_append_right (by rw [wireBeforeInner_length]; omega), wireBeforeInner_length]
  congr 1; omega

theorem wireInnerIpv4_checksum (c : Cfg) (r : CapturedRecord) (v : BitVec 16) : wireInnerIpv4 c r v = ((wireInnerIpv4 c r 0).set 10 (v.extractLsb' 8 8)).set 11 (v.extractLsb' 0 8) := by
  simp [wireInnerIpv4, lengthField, octets16, octets32]

/-- TOTAL (R151). -/
theorem wirePacket_length (c : Cfg) (r : CapturedRecord) (sq ts : BitVec 32) (st : List Byte) (h : st.length + 16 = 4 * r.words) : (wirePacket c r sq ts st).length = 93 + 4 * r.words := by
  unfold wirePacket
  generalize csum16 (wireInnerIpv4 c r 0) = v
  have := wire_lengths c r sq ts v
  simp [this]; omega

theorem getElem?_checksum_filled_in (A I W : List Byte) (v : BitVec 16) (hA : A.length = 54) (hI : I.length = 20) (a : Nat) :
    (if 74 ≤ a ∧ a < 74 + W.length then W[a - 74]? else if 64 ≤ a ∧ a < 66 then (octets16 v)[a - 64]? else (A ++ I)[a]?)
      = (A ++ (I.set 10 (v.extractLsb' 8 8)).set 11 (v.extractLsb' 0 8) ++ W)[a]? := by
  have hI' : ((I.set 10 (v.extractLsb' 8 8)).set 11 (v.extractLsb' 0 8)).length = 20 := by simpa using hI
  have hg : ∀ i, ((I.set 10 (v.extractLsb' 8 8)).set 11 (v.extractLsb' 0 8))[i]? = if i = 10 then some (v.extractLsb' 8 8) else if i = 11 then some (v.extractLsb' 0 8) else I[i]? := by
    intro i
    rw [List.getElem?_set, List.getElem?_set]
    simp only [List.length_set, hI]
    by_cases h10 : i = 10
    · subst h10; simp
    by_cases h11 : i = 11
    · subst h11; simp
    rw [if_neg (by omega), if_neg (by omega), if_neg (by omega), if_neg (by omega)]
  generalize (I.set 10 (v.extractLsb' 8 8)).set 11 (v.extractLsb' 0 8) = J at hI' hg ⊢
  have e1 : (A ++ J ++ W)[a]? = if a < 54 then A[a]? else if a < 74 then J[a - 54]? else W[a - 74]? := by
    simp only [List.getElem?_append, List.length_append, hA, hI']
    split_ifs <;> first | rfl | omega
  have e2 : (A ++ I)[a]? = if a < 54 then A[a]? else I[a - 54]? := by
    simp only [List.getElem?_append, hA]
  rw [e1, e2, hg]
  by_cases h0 : a < 54
  · simp [h0, show ¬ 74 ≤ a by omega, show ¬ 64 ≤ a by omega]
  by_cases h10 : a = 64
  · subst h10; simp [octets16]
  by_cases h11 : a = 65
  · subst h11; simp [octets16]
  by_cases h1 : a < 74
  · rw [if_neg (by omega), if_neg (by omega), if_neg h0, if_neg h0, if_pos h1, if_neg (by omega), if_neg (by omega)]
  by_cases h2 : a < 74 + W.length
  · rw [if_pos (by omega), if_neg h0, if_neg h1]
  · rw [if_neg (by omega), if_neg (by omega), if_neg h0, if_neg h0, if_neg h1, List.getElem?_eq_none (by omega), List.getElem?_eq_none (by omega)]

/-- BUILD's writing part: OUT reads as the wire format. -/
theorem buildOut_spec (c : Cfg) (r : CapturedRecord) (sq ts : BitVec 32) (st : List Byte) (h : st.length + 16 = 4 * r.words) :
   ∃ m, buildOut c r sq ts st = some m ∧ ∀ a, m.read a = (wirePacket c r sq ts st)[a]? := by
  unfold buildOut
  simp only [outBeforeChecksum_header]
  refine ⟨_, rfl, fun a => ?_⟩
  rw [Memory.applyWrites_cons, read_applyWrites_of_contiguous _ _ _ _ (writesAfterChecksum_contiguous r st h), writesAfterChecksum_bytes]
  have hm : memWrite 64 2 (csum16 (wireInnerIpv4 c r 0)).toNat = (64, octets16 (csum16 (wireInnerIpv4 c r 0))) := by
    rw [memWrite, beBytes_octets16]
  rw [hm, Memory.read_writeBytes, outBeforeChecksum_read]
  have hP : wirePacket c r sq ts st = wireBeforeInner c r sq ts ++ wireInnerIpv4 c r (csum16 (wireInnerIpv4 c r 0)) ++ (wireInnerUdp r ++ wireIntHeaders r ++ st ++ wireTail r) := by
    simp [wirePacket, wireBeforeInner]
  rw [hP, wireInnerIpv4_checksum c r (csum16 _)]
  exact getElem?_checksum_filled_in _ _ _ _ (wireBeforeInner_length ..) (wire_lengths c r sq ts 0).2.2.2.2.1 a

theorem buildWith_spec (c : Cfg) (r : CapturedRecord) (sq ts : BitVec 32) (st : List Byte) (hc : r.consistent = true) (h : st.length + 16 = 4 * r.words) :
   ∃ m, buildWith c r sq ts st = .done m ∧ ∀ a, m.read a = (wirePacket c r sq ts st)[a]? := by
  obtain ⟨m, hm, hr⟩ := buildOut_spec c r sq ts st h
  refine ⟨m, ?_, hr⟩
  unfold buildWith
  rw [hm, hc, (declares_iff r st.length).2 h]; rfl

/-- BUILD on a valid and consistent record. -/
theorem buildOp_spec (c : Cfg) (r : CapturedRecord) (sq ts : BitVec 32) (st : Option (List Byte)) (hv : r.intValid = true) (hc : r.consistent = true) (h : ∀ b, st = some b → b.length + 16 = 4 * r.words) :
   ∃ m, buildOp c r sq ts st = .done m ∧ ∀ a, m.read a = (wirePacket c r sq ts (st.getD (wireStack r)))[a]? := by
  unfold buildOp
  simp only [hv, Bool.not_true, Bool.false_eq_true, if_false]
  cases st with
  | some b => exact buildWith_spec c r sq ts b hc (h b rfl)
  | none =>
    simp only [encodeHopsOp_consistent r hc]
    exact buildWith_spec c r sq ts _ hc (wireStack_length_of_consistent r hc)

/-- BUILD with the stack of the record, and the whole of OUT read back (R38). -/
theorem buildOp_report (c : Cfg) (d : CapturedRecord) (sq ts : BitVec 32) (hv : d.intValid = true) (hc : d.consistent = true) :
   ∃ m, buildOp c d sq ts (some (wireStack d)) = .done m ∧ m.readBytes 0 d.total = some (wirePacket c d sq ts (wireStack d)) := by
  obtain ⟨m, hm, hr⟩ := buildOp_spec c d sq ts (some (wireStack d)) hv hc (by rintro b ⟨⟩; exact wireStack_length_of_consistent _ hc)
  refine ⟨m, hm, (Memory.readBytes_eq_some _ _ _ _).2 ⟨wirePacket_length _ _ _ _ _ (wireStack_length_of_consistent _ hc), fun i _ => ?_⟩⟩
  rw [Nat.zero_add, hr]; rfl

/-- When BUILD answers: the record is consistent and the stack has the declared length. -/
theorem buildOp_done {c r sq ts st m} (h : buildOp c r sq ts st = .done m) : ∃ st', r.consistent = true ∧ st'.length + 16 = 4 * r.words ∧ buildOut c r sq ts st' = some m := by
  have key : ∀ st', buildWith c r sq ts st' = .done m → ∃ st', r.consistent = true ∧ st'.length + 16 = 4 * r.words ∧ buildOut c r sq ts st' = some m := by
    intro st' h
    unfold buildWith at h
    cases h1 : r.consistent
    · simp [h1] at h
    cases h2 : r.declares st'.length
    · simp [h1, h2] at h
    simp only [h1, h2, Bool.not_true, Bool.false_eq_true, if_false] at h
    cases h3 : buildOut c r sq ts st' with
    | none => rw [h3] at h; cases h
    | some m' => rw [h3] at h; cases h; exact ⟨st', rfl, (declares_iff _ _).1 h2, h3⟩
  unfold buildOp at h
  split at h
  · cases h
  · split at h
    · exact key _ h
    · split at h
      · exact key _ h
      · cases h
      · cases h

/-- What BUILD writes is in canonical form and inside OUT (R33). -/
theorem buildOut_canonical {c r sq ts st m} (hc : r.consistent = true) (hl : st.length + 16 = 4 * r.words) (h : buildOut c r sq ts st = some m) : m.wf = true ∧ ∀ x ∈ m, x.1 < outCap := by
  have hw : r.words ≤ 20 := by
    have h1 := (declares_iff r r.stackBytes).1 hc
    have h2 : selectedClasses r.insBitmap ≤ 8 := by
      rw [selectedClasses_eq]; 
      have hb : ∀ b : Bool, b.toNat ≤ 1 := by decide
      have := hb (r.insBitmap.getLsbD 8); have := hb (r.insBitmap.getLsbD 9); have := hb (r.insBitmap.getLsbD 10); have := hb (r.insBitmap.getLsbD 11); have := hb (r.insBitmap.getLsbD 12); have := hb (r.insBitmap.getLsbD 13); have := hb (r.insBitmap.getLsbD 14); have := hb (r.insBitmap.getLsbD 15)
      omega
    have h3 := nhops_lt_three r
    unfold CapturedRecord.stackBytes CapturedRecord.hopBytes at h1
    have : r.nhops * (4 * selectedClasses r.insBitmap) ≤ 2 * 32 := Nat.mul_le_mul (by omega) (by omega)
    unfold CapturedRecord.words; omega
  unfold buildOut at h
  simp only [outBeforeChecksum_header] at h
  cases h
  unfold outBeforeChecksum
  refine ⟨Memory.wf_applyWrites _ _ (Memory.wf_applyWrites _ _ rfl), Memory.bound_applyWrites _ _ _ (Memory.bound_applyWrites _ _ _ (by simp) ?_) ?_⟩
  · simp only [writesOuterIpv4, writesOuterUdp, writesReportWord, writesReportStamp, writesEthernet, writesInnerIpv4, memWrite, outCap, List.cons_append, List.nil_append, List.mem_cons, List.not_mem_nil, or_false]
    intro w hw
    right
    rcases hw with rfl | rfl | rfl | rfl | rfl | rfl | rfl | rfl | rfl | rfl | rfl | rfl | rfl | rfl | rfl | rfl | rfl | rfl | rfl | rfl | rfl | rfl | rfl | rfl | rfl | rfl | rfl | rfl | rfl | rfl | rfl | rfl <;> simp only [beBytes_length] <;> decide
  · simp only [writesAfterChecksum, writesInnerUdp, writesShim, writesIntHeader, writesStack, writesTail, writesPayload, memWrite, outCap, List.cons_append, List.nil_append, List.mem_cons, List.not_mem_nil, or_false, CapturedRecord.tailOffset, CapturedRecord.payloadOffset]
    intro w hw
    right
    rcases hw with rfl | rfl | rfl | rfl | rfl | rfl | rfl | rfl | rfl | rfl | rfl | rfl | rfl | rfl | rfl | rfl | rfl | rfl | rfl | rfl | rfl <;> simp only [beBytes_length, payload, List.length_cons, List.length_nil] <;> omega

/-- BUILD never reads a byte of OUT without a value. -/
theorem buildOp_total (c r sq ts st) : (∃ m, buildOp c r sq ts st = .done m) ∨ ∃ k, buildOp c r sq ts st = .raised k := by
  have key : ∀ st', (∃ m, buildWith c r sq ts st' = .done m) ∨ ∃ k, buildWith c r sq ts st' = .raised k := by
    intro st'
    unfold buildWith buildOut
    simp only [outBeforeChecksum_header]
    split_ifs <;> simp
  unfold buildOp encodeHopsOp
  split_ifs
  · simp
  · cases st <;> simp only [] <;> (try exact key _)
  · cases st
    · simp
    · exact key _

/-- Reading a run of bytes of a memory that reads as a list. -/
theorem readBytes_of_read_eq (m : Memory) (p : List Byte) (hr : ∀ a, m.read a = p[a]?) (a : Nat) (l : List Byte) (x y : List Byte) (hp : p = x ++ l ++ y) (ha : x.length = a) : m.readBytes a l.length = some l := by
  refine (Memory.readBytes_eq_some _ _ _ _).2 ⟨rfl, fun i hi => ?_⟩
  rw [hr, hp, List.append_assoc, List.getElem?_append_right (by omega), List.getElem?_append_left (by omega)]
  congr 1; omega

end Sys2Proof.Machine
end

