-- ==== Sys2Proof/Laws/State.lean ====
section
/-! SUPPORT. The fields of State after each of the model's updates: what the update writes, and every other field unchanged. -/

namespace Sys2Proof.Machine

@[simp] theorem emit_seq (s : State) (e : Emission) : (s.emit e).seq = s.seq := rfl
@[simp] theorem emit_runState (s : State) (e : Emission) : (s.emit e).runState = s.runState := rfl
@[simp] theorem emit_record (s : State) (e : Emission) : (s.emit e).record = s.record := rfl
@[simp] theorem emit_stack (s : State) (e : Emission) : (s.emit e).stack = s.stack := rfl
@[simp] theorem emit_recBuf (s : State) (e : Emission) : (s.emit e).recBuf = s.recBuf := rfl
@[simp] theorem emit_out (s : State) (e : Emission) : (s.emit e).out = s.out := rfl
@[simp] theorem emit_cfg (s : State) (e : Emission) : (s.emit e).cfg = s.cfg := rfl
@[simp] theorem emit_ports (s : State) (e : Emission) : (s.emit e).ports = s.ports := rfl
@[simp] theorem emit_pending (s : State) (e : Emission) : (s.emit e).pending = s.pending := rfl
@[simp] theorem emit_emitted (s : State) (e : Emission) : (s.emit e).emitted = s.emitted ++ [e] := rfl
@[simp] theorem emit_ret (s : State) (e : Emission) : (s.emit e).ret = s.ret := rfl

@[simp] theorem endIteration_seq (s : State) (r : RunState) : (s.endIteration r).seq = s.seq := rfl
@[simp] theorem endIteration_runState (s : State) (r : RunState) : (s.endIteration r).runState = r := rfl
@[simp] theorem endIteration_record (s : State) (r : RunState) : (s.endIteration r).record = .blank := rfl
@[simp] theorem endIteration_stack (s : State) (r : RunState) : (s.endIteration r).stack = [] := rfl
@[simp] theorem endIteration_recBuf (s : State) (r : RunState) : (s.endIteration r).recBuf = [] := rfl
@[simp] theorem endIteration_out (s : State) (r : RunState) : (s.endIteration r).out = [] := rfl
@[simp] theorem endIteration_cfg (s : State) (r : RunState) : (s.endIteration r).cfg = s.cfg := rfl
@[simp] theorem endIteration_ports (s : State) (r : RunState) : (s.endIteration r).ports = s.ports := rfl
@[simp] theorem endIteration_pending (s : State) (r : RunState) : (s.endIteration r).pending = s.pending := rfl
@[simp] theorem endIteration_emitted (s : State) (r : RunState) : (s.endIteration r).emitted = s.emitted := rfl
@[simp] theorem endIteration_ret (s : State) (r : RunState) : (s.endIteration r).ret = s.ret := rfl

@[simp] theorem raiseError_seq (k : ErrorKind) (s : State) : (raiseError k s).seq = s.seq := rfl
@[simp] theorem raiseError_runState (k : ErrorKind) (s : State) : (raiseError k s).runState = k.loopAfter := rfl
@[simp] theorem raiseError_record (k : ErrorKind) (s : State) : (raiseError k s).record = s.record := rfl
@[simp] theorem raiseError_stack (k : ErrorKind) (s : State) : (raiseError k s).stack = s.stack := rfl
@[simp] theorem raiseError_recBuf (k : ErrorKind) (s : State) : (raiseError k s).recBuf = s.recBuf := rfl
@[simp] theorem raiseError_out (k : ErrorKind) (s : State) : (raiseError k s).out = s.out := rfl
@[simp] theorem raiseError_cfg (k : ErrorKind) (s : State) : (raiseError k s).cfg = s.cfg := rfl
@[simp] theorem raiseError_ports (k : ErrorKind) (s : State) : (raiseError k s).ports = s.ports := rfl
@[simp] theorem raiseError_pending (k : ErrorKind) (s : State) : (raiseError k s).pending = s.pending := rfl
@[simp] theorem raiseError_emitted (k : ErrorKind) (s : State) : (raiseError k s).emitted = s.emitted ++ [.log k] := rfl
@[simp] theorem raiseError_ret (k : ErrorKind) (s : State) : (raiseError k s).ret = s.ret := rfl

@[simp] theorem appendStack_seq (s : State) (bs : List Byte) : (s.appendStack bs).seq = s.seq := rfl
@[simp] theorem appendStack_runState (s : State) (bs : List Byte) : (s.appendStack bs).runState = s.runState := rfl
@[simp] theorem appendStack_record (s : State) (bs : List Byte) : (s.appendStack bs).record = s.record := rfl
@[simp] theorem appendStack_stack (s : State) (bs : List Byte) : (s.appendStack bs).stack = s.stack ++ bs := rfl
@[simp] theorem appendStack_recBuf (s : State) (bs : List Byte) : (s.appendStack bs).recBuf = s.recBuf := rfl
@[simp] theorem appendStack_out (s : State) (bs : List Byte) : (s.appendStack bs).out = s.out := rfl
@[simp] theorem appendStack_cfg (s : State) (bs : List Byte) : (s.appendStack bs).cfg = s.cfg := rfl
@[simp] theorem appendStack_ports (s : State) (bs : List Byte) : (s.appendStack bs).ports = s.ports := rfl
@[simp] theorem appendStack_pending (s : State) (bs : List Byte) : (s.appendStack bs).pending = s.pending := rfl
@[simp] theorem appendStack_emitted (s : State) (bs : List Byte) : (s.appendStack bs).emitted = s.emitted := rfl
@[simp] theorem appendStack_ret (s : State) (bs : List Byte) : (s.appendStack bs).ret = s.ret := rfl

@[simp] theorem reconfigure_seq (s : State) (c : Cfg) : (s.reconfigure c).seq = s.seq := rfl
@[simp] theorem reconfigure_runState (s : State) (c : Cfg) : (s.reconfigure c).runState = s.runState := rfl
@[simp] theorem reconfigure_record (s : State) (c : Cfg) : (s.reconfigure c).record = s.record := rfl
@[simp] theorem reconfigure_stack (s : State) (c : Cfg) : (s.reconfigure c).stack = s.stack := rfl
@[simp] theorem reconfigure_recBuf (s : State) (c : Cfg) : (s.reconfigure c).recBuf = s.recBuf := rfl
@[simp] theorem reconfigure_out (s : State) (c : Cfg) : (s.reconfigure c).out = s.out := rfl
@[simp] theorem reconfigure_ports (s : State) (c : Cfg) : (s.reconfigure c).ports = s.ports := rfl
@[simp] theorem reconfigure_pending (s : State) (c : Cfg) : (s.reconfigure c).pending = s.pending := rfl
@[simp] theorem reconfigure_emitted (s : State) (c : Cfg) : (s.reconfigure c).emitted = s.emitted := rfl
@[simp] theorem reconfigure_ret (s : State) (c : Cfg) : (s.reconfigure c).ret = s.ret := rfl
@[simp] theorem reconfigure_cfg (s : State) (c : Cfg) : (s.reconfigure c).cfg = Cfg.reconfigured s.cfg c := rfl
@[simp] theorem reconfigured_recEndian (old new : Cfg) : (Cfg.reconfigured old new).recEndian = old.recEndian := rfl
@[simp] theorem reconfigured_layout (old new : Cfg) : (Cfg.reconfigured old new).layout = new.layout := rfl
@[simp] theorem reconfigured_dstAddr (old new : Cfg) : (Cfg.reconfigured old new).dstAddr = new.dstAddr := rfl
@[simp] theorem reconfigured_dstPort (old new : Cfg) : (Cfg.reconfigured old new).dstPort = new.dstPort := rfl
@[simp] theorem reconfigured_srcAddr (old new : Cfg) : (Cfg.reconfigured old new).srcAddr = new.srcAddr := rfl
@[simp] theorem reconfigured_srcPort (old new : Cfg) : (Cfg.reconfigured old new).srcPort = new.srcPort := rfl
@[simp] theorem reconfigured_outerTtl (old new : Cfg) : (Cfg.reconfigured old new).outerTtl = new.outerTtl := rfl
@[simp] theorem reconfigured_innerTtl (old new : Cfg) : (Cfg.reconfigured old new).innerTtl = new.innerTtl := rfl
@[simp] theorem reconfigured_dstMac (old new : Cfg) : (Cfg.reconfigured old new).dstMac = new.dstMac := rfl
@[simp] theorem reconfigured_srcMac (old new : Cfg) : (Cfg.reconfigured old new).srcMac = new.srcMac := rfl
@[simp] theorem reconfigured_hwId (old new : Cfg) : (Cfg.reconfigured old new).hwId = new.hwId := rfl
@[simp] theorem reconfigured_trVer (old new : Cfg) : (Cfg.reconfigured old new).trVer = new.trVer := rfl
@[simp] theorem reconfigured_trNproto (old new : Cfg) : (Cfg.reconfigured old new).trNproto = new.trNproto := rfl

@[simp] theorem advanceSeq_seq (s : State) : (s.advanceSeq).seq = s.seq + 1 := rfl
@[simp] theorem advanceSeq_runState (s : State) : (s.advanceSeq).runState = s.runState := rfl
@[simp] theorem advanceSeq_record (s : State) : (s.advanceSeq).record = s.record := rfl
@[simp] theorem advanceSeq_stack (s : State) : (s.advanceSeq).stack = s.stack := rfl
@[simp] theorem advanceSeq_recBuf (s : State) : (s.advanceSeq).recBuf = s.recBuf := rfl
@[simp] theorem advanceSeq_out (s : State) : (s.advanceSeq).out = s.out := rfl
@[simp] theorem advanceSeq_cfg (s : State) : (s.advanceSeq).cfg = s.cfg := rfl
@[simp] theorem advanceSeq_ports (s : State) : (s.advanceSeq).ports = s.ports := rfl
@[simp] theorem advanceSeq_pending (s : State) : (s.advanceSeq).pending = s.pending := rfl
@[simp] theorem advanceSeq_emitted (s : State) : (s.advanceSeq).emitted = s.emitted := rfl
@[simp] theorem advanceSeq_ret (s : State) : (s.advanceSeq).ret = s.ret := rfl

@[simp] theorem transmit_seq (c : Cfg) (bytes : List Byte) (a : TxResult) (s : State) : (transmit c bytes a s).seq = s.seq := by
  cases a <;> rfl
@[simp] theorem transmit_runState (c : Cfg) (bytes : List Byte) (a : TxResult) (s : State) :
    (transmit c bytes a s).runState = (match a with | .ok => .idle | .fail => .stopped) := by
  cases a <;> rfl
@[simp] theorem transmit_record (c : Cfg) (bytes : List Byte) (a : TxResult) (s : State) : (transmit c bytes a s).record = s.record := by
  cases a <;> rfl
@[simp] theorem transmit_stack (c : Cfg) (bytes : List Byte) (a : TxResult) (s : State) : (transmit c bytes a s).stack = s.stack := by
  cases a <;> rfl
@[simp] theorem transmit_recBuf (c : Cfg) (bytes : List Byte) (a : TxResult) (s : State) : (transmit c bytes a s).recBuf = s.recBuf := by
  cases a <;> rfl
@[simp] theorem transmit_out (c : Cfg) (bytes : List Byte) (a : TxResult) (s : State) : (transmit c bytes a s).out = s.out := by
  cases a <;> rfl
@[simp] theorem transmit_cfg (c : Cfg) (bytes : List Byte) (a : TxResult) (s : State) : (transmit c bytes a s).cfg = s.cfg := by
  cases a <;> rfl
@[simp] theorem transmit_ports (c : Cfg) (bytes : List Byte) (a : TxResult) (s : State) : (transmit c bytes a s).ports = s.ports := by
  cases a <;> rfl
@[simp] theorem transmit_pending (c : Cfg) (bytes : List Byte) (a : TxResult) (s : State) : (transmit c bytes a s).pending = s.pending := by
  cases a <;> rfl
@[simp] theorem transmit_emitted (c : Cfg) (bytes : List Byte) (a : TxResult) (s : State) :
    (transmit c bytes a s).emitted = s.emitted ++ .tx bytes c.dstAddr c.dstPort :: (match a with | .ok => [] | .fail => [.log .transmitFailure]) := by
  cases a <;> simp [transmit, State.emit, raiseError]
@[simp] theorem transmit_ret (c : Cfg) (bytes : List Byte) (a : TxResult) (s : State) : (transmit c bytes a s).ret = s.ret := by
  cases a <;> rfl

/-- A step whose fetch runs an operation is that operation. -/
theorem step_of_fetch_run {s t : State} {i : Instr} (h : fetch s = .run i t) : step s = exec i t := by
  simp [step, h]

/-- A step whose fetch runs none answers the state the fetch leaves. -/
theorem step_of_fetch_quiet {s t : State} (h : fetch s = .quiet t) : step s = .next t := by
  simp [step, h]

/-- In IDLE an operation is available. -/
theorem whenIdle_of_idle {s : State} (h : s.runState = .idle) (o : Host.Outcome State Fault Refusal) : s.whenIdle o = o := by
  simp [State.whenIdle, h]

/-- In STOPPED no operation but RESET is available. -/
theorem whenIdle_of_stopped {s : State} (h : s.runState = .stopped) (o : Host.Outcome State Fault Refusal) :
    s.whenIdle o = .next s := by
  simp [State.whenIdle, h]

/-- Everything `whenIdle` can answer. -/
theorem whenIdle_cases (s : State) (o : Host.Outcome State Fault Refusal) :
    (s.runState = .idle ∧ s.whenIdle o = o) ∨ (s.runState ≠ .idle ∧ s.whenIdle o = .next s) := by
  by_cases h : s.runState = .idle
  · exact .inl ⟨h, whenIdle_of_idle h o⟩
  · exact .inr ⟨h, by simp [State.whenIdle, h]⟩

end Sys2Proof.Machine
end

