-- ==== Sys2Proof/Laws/RecordDecoder.lean ====
section
/-! SUPPORT. DECODE: the byte reads of R73 as the numbers of R51 to R54, and the byte images a decoder reads back. -/

namespace Sys2Proof.Machine

theorem memRead_succ (raw : List Byte) (a n : Nat) (h : a < raw.length) : memRead raw a (n+1) = octetAt raw a :: memRead raw (a+1) n := by
  unfold memRead octetAt
  rw [List.drop_eq_getElem_cons h, List.take_succ_cons]
  simp [List.getD_eq_getElem?_getD, h]

theorem memRead_zero (raw : List Byte) (a : Nat) : memRead raw a 0 = [] := by simp [memRead]

theorem memRead_one (raw : List Byte) (a : Nat) (h : a < raw.length) : memRead raw a 1 = [octetAt raw a] := by
  rw [memRead_succ _ _ _ h, memRead_zero]

theorem rec8_eq_octetAt (raw : List Byte) (a : Nat) (h : a < raw.length) : rec8 raw a = octetAt raw a := by
  simp [rec8, memRead_one _ _ h, leNat]

theorem toNat_append {n m : Nat} (x : BitVec n) (y : BitVec m) : (x ++ y).toNat = x.toNat * 2^m + y.toNat := by
  rw [BitVec.toNat_append, ← Nat.shiftLeft_add_eq_or_of_lt y.isLt, Nat.shiftLeft_eq]

theorem toNat_append_two (x y : Byte) : BitVec.toNat (w := 16) (x ++ y) = x.toNat * 256 + y.toNat := toNat_append x y

theorem toNat_append_four (x y z w : Byte) : BitVec.toNat (w := 32) (x ++ y ++ z ++ w) = ((x.toNat * 256 + y.toNat) * 256 + z.toNat)*256 + w.toNat := by
  have h1 := toNat_append (x ++ y ++ z) w
  have h2 := toNat_append (x ++ y) z
  have h3 := toNat_append x y
  rw [h2, h3] at h1
  exact h1

theorem rec16_eq_number16 (c : Cfg) (raw : List Byte) (a : Nat) (h : a + 1 < raw.length) : rec16 c raw a = number16 c.recEndian raw a := by
  unfold rec16 recU
  rw [memRead_succ _ _ _ (by omega), memRead_succ _ _ _ h, memRead_zero]
  cases he : c.recEndian <;> simp only [bytesNat, number16, leNat, beNat] <;> generalize octetAt raw a = x <;> generalize octetAt raw (a+1) = y <;>
   (apply BitVec.eq_of_toNat_eq; have := x.isLt; have := y.isLt; rw [toNat_append_two, BitVec.toNat_ofNat]; simp; omega)

theorem rec32_eq_number32 (c : Cfg) (raw : List Byte) (a : Nat) (h : a + 3 < raw.length) : rec32 c raw a = number32 c.recEndian raw a := by
  unfold rec32 recU
  rw [memRead_succ _ _ _ (by omega), memRead_succ _ _ _ (by omega), memRead_succ _ _ _ (by omega), memRead_succ _ _ _ (by omega), memRead_zero]
  simp only [Nat.add_assoc, Nat.reduceAdd]
  cases he : c.recEndian <;> simp only [bytesNat, number32, leNat, beNat] <;> generalize octetAt raw a = x <;> generalize octetAt raw (a+1) = y <;> generalize octetAt raw (a+2) = z <;> generalize octetAt raw (a+3) = w <;>
   (apply BitVec.eq_of_toNat_eq; have := x.isLt; have := y.isLt; have := z.isLt; have := w.isLt; rw [toNat_append_four, BitVec.toNat_ofNat]; simp; omega)

/-- A hop block under the default layout (R54). -/
theorem decodeHop_default (c : Cfg) (raw : List Byte) (hl : c.layout = {}) (h : raw.length = 128) (k : HopIndex) : decodeHop c raw k = hopAt c.recEndian raw (match k with | .hop0 => 20 | .hop1 => 52) := by
  cases k <;> simp [decodeHop, hopAt, recSwitchId, recIngressPort, recEgressPort, recHopLatency, recQPair, recIngressTs, recEgressTs, recQcPair, recTxUtil, hopBase, hl, pairId, pairVal,
    rec32_eq_number32, rec16_eq_number16, h]

/-- A record under the default layout (R51). -/
theorem decodeFields_default (c : Cfg) (raw : List Byte) (hl : c.layout = {}) (h : raw.length = 128) : decodeFields c raw = recordAt c.recEndian raw := by
  have h0 := decodeHop_default c raw hl h .hop0
  have h1 := decodeHop_default c raw hl h .hop1
  simp only [decodeFields, recordAt, h0, h1]
  simp [recSrcIp, recDstIp, recSrcPort, recDstPort, recIpVer, recL4Proto, recIntValid, recHop0Valid, recHop1Valid, recInsCnt, recFlags, recIntLength, recInsBitmap, hl, rec8_eq_octetAt, rec16_eq_number16, rec32_eq_number32, h]

/-- DECODE where every byte it reads has a value. -/
theorem decodeOp_of_decodeRec {c : Cfg} {raw : List Byte} {d : CapturedRecord} (h : decodeRec c (loadRec raw) = some d) :
    decodeOp c recLen raw = .done d := by
  simp [decodeOp, h]

theorem natBytes_two (e : Endian) (v : BitVec 16) : ∃ x y, natBytes e 2 v.toNat = [x, y] ∧ (match e with | .little => y ++ x | .big => x ++ y) = v := by
  have := v.isLt
  cases e
  · refine ⟨_, _, rfl, ?_⟩
    apply BitVec.eq_of_toNat_eq
    rw [toNat_append_two]; simp; omega
  · refine ⟨_, _, rfl, ?_⟩
    apply BitVec.eq_of_toNat_eq
    rw [toNat_append_two]; simp; omega

theorem natBytes_four (e : Endian) (v : BitVec 32) : ∃ x y z w, natBytes e 4 v.toNat = [x, y, z, w] ∧ (match e with | .little => w ++ z ++ y ++ x | .big => x ++ y ++ z ++ w) = v := by
  have := v.isLt
  cases e
  · refine ⟨_, _, _, _, rfl, ?_⟩
    apply BitVec.eq_of_toNat_eq
    rw [toNat_append_four]; simp; omega
  · refine ⟨_, _, _, _, rfl, ?_⟩
    apply BitVec.eq_of_toNat_eq
    rw [toNat_append_four]; simp; omega

theorem recordImage_length (e : Endian) (r : CapturedRecord) : (recordImage e r).length = 128 := by
  simp [recordImage, hopImage]

/-- A number read back from its byte image. -/
theorem number16_natBytes (e : Endian) (pre post : List Byte) (v : BitVec 16) (a : Nat) (ha : pre.length = a) : number16 e (pre ++ natBytes e 2 v.toNat ++ post) a = v := by
  obtain ⟨x,y,hb,hv⟩ := natBytes_two e v
  rw [hb, ← hv]
  subst ha
  cases e <;> simp [number16, octetAt, List.getD_eq_getElem?_getD]

/-- A number read back from its byte image. -/
theorem number32_natBytes (e : Endian) (pre post : List Byte) (v : BitVec 32) (a : Nat) (ha : pre.length = a) : number32 e (pre ++ natBytes e 4 v.toNat ++ post) a = v := by
  obtain ⟨x,y,z,w,hb,hv⟩ := natBytes_four e v
  rw [hb, ← hv]
  subst ha
  cases e <;> simp [number32, octetAt, List.getD_eq_getElem?_getD]

theorem flags_fields (a : BitVec 5) (x y z : Bool) : let f : Byte := a ++ BitVec.ofBool x ++ BitVec.ofBool y ++ BitVec.ofBool z
   f.getLsbD 2 = x ∧ f.getLsbD 1 = y ∧ f.getLsbD 0 = z ∧ f.extractLsb' 3 5 = a := by
  revert a; cases x <;> cases y <;> cases z <;> decide +kernel

theorem octetAt_append (pre post : List Byte) (b : Byte) (a : Nat) (ha : pre.length = a) : octetAt (pre ++ b :: post) a = b := by
  subst ha; simp [octetAt, List.getD_eq_getElem?_getD]

end Sys2Proof.Machine
end

