-- ==== Sys2Proof/Laws/Loop.lean ====
section
/-! SUPPORT. The processing loop: PROCESS on each kind of input that is not reported. -/

namespace Sys2Proof.Machine

/-- PROCESS where a stop is requested. -/
theorem execProcess_stop {s : State} (h : s.runState = .idle) (hs : s.ports.stop = true) :
    execProcess s = .next (s.endIteration .stopped) := by
  simp [execProcess, whenIdle_of_idle h, runPhases, phase, h, phaseIdle, hs]

/-- PROCESS where nothing is presented. -/
theorem execProcess_wait {s : State} (h : s.runState = .idle) (hs : s.ports.stop = false) (hr : s.ports.recIn = none) :
    execProcess s = .next s := by
  simp [execProcess, whenIdle_of_idle h, runPhases, phase, h, phaseIdle, hs, hr]

/-- PROCESS on a record of another length. -/
theorem execProcess_malformed {s : State} {r : RecIn} (h : s.runState = .idle) (hs : s.ports.stop = false)
    (hr : s.ports.recIn = some r) (hl : r.len ≠ recLen) :
    execProcess s = .next ((raiseError (.malformedRecord r.len) s).endIteration .idle) := by
  simp [execProcess, whenIdle_of_idle h, runPhases, phase, h, phaseIdle, hs, hr, phaseDecoding, hl, State.endIteration,
    raiseError, State.emit]

/-- PROCESS on a record that brings fewer bytes than it claims. -/
theorem execProcess_unwritten {s : State} {r : RecIn} (h : s.runState = .idle) (hs : s.ports.stop = false)
    (hr : s.ports.recIn = some r) (hl : r.len = recLen) (hd : decodeRec s.cfg (loadRec r.raw) = none) :
    execProcess s = .fault .recUnwritten := by
  simp [execProcess, whenIdle_of_idle h, runPhases, phase, h, phaseIdle, hs, hr, phaseDecoding, hl, decodeOp, hd]

/-- PROCESS on a record without a valid INT section. -/
theorem execProcess_skip {s : State} {r : RecIn} {d : CapturedRecord} (h : s.runState = .idle) (hs : s.ports.stop = false)
    (hr : s.ports.recIn = some r) (hl : r.len = recLen) (hd : decodeRec s.cfg (loadRec r.raw) = some d)
    (hv : d.intValid = false) :
    execProcess s = .next (s.endIteration .idle) := by
  simp [execProcess, whenIdle_of_idle h, runPhases, phase, h, phaseIdle, hs, hr, phaseDecoding, hl, State.endIteration,
    decodeOp_of_decodeRec hd, hv]

/-- PROCESS on an inconsistent record. -/
theorem execProcess_reject {s : State} {r : RecIn} {d : CapturedRecord} (h : s.runState = .idle) (hs : s.ports.stop = false)
    (hr : s.ports.recIn = some r) (hl : r.len = recLen) (hd : decodeRec s.cfg (loadRec r.raw) = some d)
    (hv : d.intValid = true) (hc : d.consistent = false) :
    execProcess s = .next ((raiseError (.protocolInconsistency d.words d.stackBytes) s).endIteration .idle) := by
  simp [execProcess, whenIdle_of_idle h, runPhases, phase, h, phaseIdle, hs, hr, phaseDecoding, hl, State.endIteration,
    raiseError, State.emit, decodeOp_of_decodeRec hd, hv, phaseEncoding, encodeHopsOp_inconsistent _ hc, CapturedRecord.words]

end Sys2Proof.Machine
end

