-- ==== Sys2Proof/Laws/Report.lean ====
section
/-! SUPPORT. The iteration that reports a record, and the state it leaves. -/

namespace Sys2Proof.Machine

/-- The state a reporting iteration leaves. -/
def State.afterReport (s : State) (d : CapturedRecord) (r : RecIn) : State :=
  let u := transmit s.cfg (wirePacket s.cfg d (s.seq + 1) r.capTs32 (wireStack d)) s.ports.txResult s.advanceSeq
  u.endIteration u.runState

/-- PROCESS on a record that is reported. -/
theorem execProcess_report {s : State} {r : RecIn} {d : CapturedRecord} (h : s.runState = .idle) (hs : s.ports.stop = false)
    (hr : s.ports.recIn = some r) (hl : r.len = recLen) (hd : decodeRec s.cfg (loadRec r.raw) = some d)
    (hv : d.intValid = true) (hc : d.consistent = true) :
    execProcess s = .next (s.afterReport d r) := by
  obtain ⟨m, hm, hp⟩ := buildOp_report s.cfg d (s.seq + 1) r.capTs32 hv hc
  simp only [BitVec.ofNat_eq_ofNat] at hm hp
  cases ht : s.ports.txResult <;>
    simp [execProcess, whenIdle_of_idle h, runPhases, phase, h, phaseIdle, hs, hr, phaseDecoding, hl, State.endIteration,
      raiseError, State.emit, decodeOp_of_decodeRec hd, hv, phaseEncoding, encodeHopsOp_consistent _ hc, State.advanceSeq,
      hm, hp, phaseSending, transmit, ht, ErrorKind.loopAfter, State.afterReport]

/-- PROCESS.REPORT on a record that is reported. -/
theorem execProcessReport_report {s : State} {r : RecIn} {d : CapturedRecord} (h : s.runState = .idle)
    (hs : s.ports.stop = false) (hr : s.ports.recIn = some r) (hl : r.len = recLen)
    (hd : decodeRec s.cfg (loadRec r.raw) = some d) (hv : d.intValid = true) (hc : d.consistent = true) :
    execProcessReport s = .next (s.afterReport d r) := by
  obtain ⟨m, hm, hp⟩ := buildOp_report s.cfg d (s.seq + 1) r.capTs32 hv hc
  simp only [BitVec.ofNat_eq_ofNat] at hm hp
  simp [execProcessReport, whenIdle_of_idle h, hs, hr, hl, hd, hv, hc, hopsBytes_eq_wireStack, State.advanceSeq, hm, hp,
    State.afterReport]

theorem afterReport_seq (s : State) (d : CapturedRecord) (r : RecIn) : (s.afterReport d r).seq = s.seq + 1 := by
  simp [State.afterReport]

theorem afterReport_inputs (s : State) (d : CapturedRecord) (r : RecIn) :
    (s.afterReport d r).cfg = s.cfg ∧ (s.afterReport d r).ports = s.ports ∧ (s.afterReport d r).pending = s.pending := by
  simp [State.afterReport]

theorem afterReport_rests (s : State) (d : CapturedRecord) (r : RecIn) : (s.afterReport d r).runState.rests = true := by
  unfold State.afterReport transmit
  cases s.ports.txResult <;> rfl

theorem afterReport_emitted (s : State) (d : CapturedRecord) (r : RecIn) :
    ∃ es, (s.afterReport d r).emitted
        = s.emitted ++ (.tx (wirePacket s.cfg d (s.seq + 1) r.capTs32 (wireStack d)) s.cfg.dstAddr s.cfg.dstPort :: es) ∧
      (es = [] ∨ es = [.log .transmitFailure]) := by
  unfold State.afterReport
  simp only [endIteration_emitted, transmit_emitted]
  cases s.ports.txResult
  · exact ⟨[], rfl, .inl rfl⟩
  · exact ⟨[.log .transmitFailure], rfl, .inr rfl⟩

/-- The sequence number a report carries is the one it was built with. -/
theorem stamp_wirePacket (c : Cfg) (r : CapturedRecord) (sq ts : BitVec 32) (st : List Byte) (a : BitVec 32) (b : BitVec 16) :
    Emission.stamp (.tx (wirePacket c r sq ts st) a b) = some sq.toNat := by
  have e : wirePacket c r sq ts st
      = (wireOuterIpv4 c r ++ wireOuterUdp c r ++ [c.trVer ++ c.trNproto, 0x20, 0x00, c.hwId ++ 0#2])
        ++ (octets32 sq ++ (octets32 ts ++ wireEthernet c ++ wireInnerIpv4 c r (csum16 (wireInnerIpv4 c r 0))
          ++ wireInnerUdp r ++ wireIntHeaders r ++ st ++ wireTail r)) := by
    simp [wirePacket, wireReport]
  have hl : (wireOuterIpv4 c r ++ wireOuterUdp c r ++ [c.trVer ++ c.trNproto, 0x20, 0x00, c.hwId ++ 0#2]).length = 32 := by
    simp [wire_lengths c r sq ts 0]
  simp only [Emission.stamp, e]
  rw [List.drop_left' hl, List.take_left' (octets32_length sq), beNat_octets32]

end Sys2Proof.Machine
end

