-- ==== Sys2Proof/Laws/Iteration.lean ====
section
/-! SUPPORT. What an iteration of the loop, or one of its outcomes invoked directly, can leave behind. -/

namespace Sys2Proof.Machine

/-- What an iteration, or one of its outcomes invoked directly, can leave behind. -/
inductive IterationResult (i : Instr) (s : State) : State → Prop where
  | unchanged : IterationResult i s s
  | stop : IterationResult i s (s.endIteration .stopped)
  | skip : IterationResult i s (s.endIteration .idle)
  | rejected (k : ErrorKind) : IterationResult i s ((raiseError k s).endIteration .idle)
  | reported (d : CapturedRecord) (r : RecIn) (h : d.consistent = true) (hi : i = .process ∨ i = .processReport) :
      IterationResult i s (s.afterReport d r)

theorem execProcess_cases {s t : State} (h : s.runState = .idle) (he : execProcess s = .next t) :
    IterationResult .process s t := by
  cases hs : s.ports.stop
  · cases hr : s.ports.recIn with
    | none => rw [execProcess_wait h hs hr] at he; cases he; exact .unchanged
    | some r =>
      by_cases hl : r.len = recLen
      · cases hd : decodeRec s.cfg (loadRec r.raw) with
        | none => rw [execProcess_unwritten h hs hr hl hd] at he; cases he
        | some d =>
          cases hv : d.intValid
          · rw [execProcess_skip h hs hr hl hd hv] at he; cases he; exact .skip
          · cases hc : d.consistent
            · rw [execProcess_reject h hs hr hl hd hv hc] at he; cases he; exact .rejected _
            · rw [execProcess_report h hs hr hl hd hv hc] at he; cases he; exact .reported d r hc (.inl rfl)
      · rw [execProcess_malformed h hs hr hl] at he; cases he; exact .rejected _
  · rw [execProcess_stop h hs] at he; cases he; exact .stop

theorem execProcessStop_cases {s t : State} (h : s.runState = .idle) (he : execProcessStop s = .next t) :
    IterationResult .processStop s t := by
  rw [execProcessStop, whenIdle_of_idle h] at he
  split at he <;> cases he
  · exact .stop
  · exact .unchanged

theorem execProcessSkipMalformed_cases {s t : State} (h : s.runState = .idle) (he : execProcessSkipMalformed s = .next t) :
    IterationResult .processSkipMalformed s t := by
  rw [execProcessSkipMalformed, whenIdle_of_idle h] at he
  split at he
  · cases he; exact .unchanged
  · split at he <;> cases he
    · exact .unchanged
    · exact .rejected _

theorem execProcessSkipNoint_cases {s t : State} (h : s.runState = .idle) (he : execProcessSkipNoint s = .next t) :
    IterationResult .processSkipNoint s t := by
  rw [execProcessSkipNoint, whenIdle_of_idle h] at he
  split at he
  · cases he; exact .unchanged
  · split at he
    · cases he; exact .unchanged
    · split at he
      · cases he
      · cases he
        split
        · exact .unchanged
        · exact .skip

theorem execProcessReject_cases {s t : State} (h : s.runState = .idle) (he : execProcessReject s = .next t) :
    IterationResult .processReject s t := by
  rw [execProcessReject, whenIdle_of_idle h] at he
  split at he
  · cases he; exact .unchanged
  · split at he
    · cases he; exact .unchanged
    · split at he
      · cases he
      · split at he <;> cases he
        · exact .unchanged
        · exact .rejected _

theorem execProcessReport_cases {s t : State} (h : s.runState = .idle) (he : execProcessReport s = .next t) :
    IterationResult .processReport s t := by
  cases hr : s.ports.recIn with
  | none => simp [execProcessReport, whenIdle_of_idle h, hr] at he; subst he; exact .unchanged
  | some r =>
    by_cases hg : s.ports.stop = true ∨ r.len ≠ recLen
    · simp [execProcessReport, whenIdle_of_idle h, hr, hg] at he; subst he; exact .unchanged
    · obtain ⟨hs, hl⟩ : s.ports.stop = false ∧ r.len = recLen := by simpa using hg
      cases hd : decodeRec s.cfg (loadRec r.raw) with
      | none => simp [execProcessReport, whenIdle_of_idle h, hr, hs, hl, hd] at he
      | some d =>
        by_cases hv : d.intValid = true ∧ d.consistent = true
        · rw [execProcessReport_report h hs hr hl hd hv.1 hv.2] at he
          cases he; exact .reported d r hv.2 (.inr rfl)
        · have hv' : d.intValid = false ∨ d.consistent = false := by
            cases h1 : d.intValid <;> cases h2 : d.consistent <;> simp_all
          simp [execProcessReport, whenIdle_of_idle h, hr, hs, hl, hd, hv'] at he
          subst he; exact .unchanged

end Sys2Proof.Machine
end

