-- ==== Sys2Proof/Laws/Exec.lean ====
section
/-! SUPPORT. Once for all operations: what a next state of `exec` can be. -/

namespace Sys2Proof.Machine

/-- What an operation can leave behind. -/
inductive ExecResult (i : Instr) (s : State) : State → Prop where
  | iteration {t : State}
      (hi : i ∈ [Instr.process, .processStop, .processSkipMalformed, .processSkipNoint, .processReject, .processReport])
      (h : IterationResult i s t) : ExecResult i s t
  | unchanged : ExecResult i s s
  | reset (hi : i = .reset) : ExecResult i s { s.endIteration .idle with seq := 0 }
  | stacked (st : List Byte) : ExecResult i s { s with stack := st }
  | rejected (k : ErrorKind) (st : List Byte) (o : Memory) (ho : o = [] ∨ o = s.out) :
      ExecResult i s (raiseError k { s with stack := st, out := o })
  | decoded (d : CapturedRecord) (raw : List Byte) : ExecResult i s { s with record := d, recBuf := loadRec raw }
  | counted (hi : i = .seqNext) : ExecResult i s { s with seq := s.seq + 1, ret := s.seq + 1 }
  | returned (v : BitVec 32) : ExecResult i s { s with ret := v }
  | built (sq ts : BitVec 32) (st : Option (List Byte)) (m : Memory) (h : buildOp s.cfg s.record sq ts st = .done m) :
      ExecResult i s { s with out := m }

/-- Outside IDLE nothing but RESET has an effect. -/
theorem exec_of_not_idle {s : State} {i : Instr} (h : s.runState ≠ .idle) (hi : i ≠ .reset) : exec i s = .next s := by
  cases i <;> first
    | exact absurd rfl hi
    | simp [exec, execInsSwid, execInsPorts, execInsHoplat, execInsQocc, execInsIngts, execInsEgts, execInsQcong,
        execInsTxutil, execProcess, execProcessStop, execProcessSkipMalformed, execProcessSkipNoint, execProcessReject,
        execProcessReport, execDecode, execEncodeHop, execEncodeHops, execSeqNext, execBuild, execCsum, State.whenIdle, h]

/-- Once for every operation: a next state is one of these. -/
theorem exec_cases {i : Instr} {s t : State} (he : exec i s = .next t) : ExecResult i s t := by
  by_cases h : s.runState = .idle
  · cases i
    case reset => cases he; exact .reset rfl
    case process => exact .iteration (by simp) (execProcess_cases h he)
    case processStop => exact .iteration (by simp) (execProcessStop_cases h he)
    case processSkipMalformed => exact .iteration (by simp) (execProcessSkipMalformed_cases h he)
    case processSkipNoint => exact .iteration (by simp) (execProcessSkipNoint_cases h he)
    case processReject => exact .iteration (by simp) (execProcessReject_cases h he)
    case processReport => exact .iteration (by simp) (execProcessReport_cases h he)
    case decode len raw =>
      simp only [exec, execDecode, whenIdle_of_idle h] at he
      split at he <;> cases he
      · exact .decoded _ _
      · exact .rejected _ s.stack s.out (.inr rfl)
    case encodeHops =>
      simp only [exec, execEncodeHops, whenIdle_of_idle h] at he
      split at he <;> cases he
      · exact .stacked _
      · exact .rejected _ _ s.out (.inr rfl)
    case build sq ts supplied =>
      simp only [exec, execBuild, whenIdle_of_idle h] at he
      split at he <;> cases he
      · exact .built _ _ _ _ (by assumption)
      · exact .rejected _ s.stack [] (.inl rfl)
    case seqNext =>
      simp only [exec, execSeqNext, whenIdle_of_idle h] at he
      cases he; exact .counted rfl
    case csum =>
      simp only [exec, execCsum, whenIdle_of_idle h] at he
      cases he; exact .returned _
    all_goals
      simp only [exec, execInsSwid, execInsPorts, execInsHoplat, execInsQocc, execInsIngts, execInsEgts, execInsQcong,
        execInsTxutil, execEncodeHop, whenIdle_of_idle h] at he
      cases he; exact .stacked _
  · by_cases hi : i = .reset
    · subst hi; cases he; exact .reset rfl
    · rw [exec_of_not_idle h hi] at he; cases he; exact .unchanged

end Sys2Proof.Machine
end

