-- ==== Sys2Proof/Laws/Fetch.lean ====
section
/-! SUPPORT. The fetch: what a bitmap word decodes to, what the decoder answers is well formed, and the lemmas of a run. -/

namespace Sys2Proof.Machine

theorem bytesNat_two_lt (e : Endian) (b0 b1 : Byte) : bytesNat e [b0,b1] < 65536 := by
  have := b0.isLt; have := b1.isLt
  cases e <;> simp [bytesNat, leNat, beNat] <;> omega

/-- What a bitmap selects first: nothing below 256, otherwise the row of its highest set bit. -/
theorem decodeBitmap_cases (k : HopIndex) (w : BitVec 16) :
   (w.toNat < 256 ∧ decodeBitmap k w = none) ∨ (∃ i b, 8 ≤ b ∧ b < 16 ∧ decodeBitmap k w = some i ∧ i.pattern = some (2^b, 2^b) ∧ i.hopIndex = k ∧ 2^b ≤ w.toNat ∧ w.toNat < 2^(b+1) ) := by
  have hw := w.isLt
  have key (b : Nat) : w.getLsbD b = true → 2^b ≤ w.toNat := fun h => Nat.ge_two_pow_of_testBit h
  have low (b : Nat) (hb : b < 16) (h1 : w.toNat < 2^(b+1)) (h2 : ¬ w.getLsbD b = true) : w.toNat < 2^b := by
    by_contra hc
    apply h2
    show w.toNat.testBit b = true
    rw [Nat.testBit_eq_decide_div_mod_eq]
    have : w.toNat / 2^b = 1 := by
      apply Nat.div_eq_of_lt_le
      · omega
      · rw [pow_succ] at h1; omega
    simp [this]
  unfold decodeBitmap
  split
  · exact .inr ⟨_, 15, by omega, by omega, rfl, rfl, rfl, key _ ‹_›, by omega⟩
  have h15 := low 15 (by omega) (by omega) ‹_›
  split
  · exact .inr ⟨_, 14, by omega, by omega, rfl, rfl, rfl, key _ ‹_›, by omega⟩
  have h14 := low 14 (by omega) (by omega) ‹_›
  split
  · exact .inr ⟨_, 13, by omega, by omega, rfl, rfl, rfl, key _ ‹_›, by omega⟩
  have h13 := low 13 (by omega) (by omega) ‹_›
  split
  · exact .inr ⟨_, 12, by omega, by omega, rfl, rfl, rfl, key _ ‹_›, by omega⟩
  have h12 := low 12 (by omega) (by omega) ‹_›
  split
  · exact .inr ⟨_, 11, by omega, by omega, rfl, rfl, rfl, key _ ‹_›, by omega⟩
  have h11 := low 11 (by omega) (by omega) ‹_›
  split
  · exact .inr ⟨_, 10, by omega, by omega, rfl, rfl, rfl, key _ ‹_›, by omega⟩
  have h10 := low 10 (by omega) (by omega) ‹_›
  split
  · exact .inr ⟨_, 9, by omega, by omega, rfl, rfl, rfl, key _ ‹_›, by omega⟩
  have h9 := low 9 (by omega) (by omega) ‹_›
  split
  · exact .inr ⟨_, 8, by omega, by omega, rfl, rfl, rfl, key _ ‹_›, by omega⟩
  have h8 := low 8 (by omega) (by omega) ‹_›
  exact .inl ⟨by omega, rfl⟩

theorem decode_bitmap (e : Endian) (k : HopIndex) (b0 b1 : Byte) : decode e k [b0,b1] = match decodeBitmap k (BitVec.ofNat 16 (bytesNat e [b0, b1])) with
    | some i => .ok i
    | none => .error .noMetricClass := rfl

theorem toNat_bytesNat_two (e : Endian) (b0 b1 : Byte) : (BitVec.ofNat 16 (bytesNat e [b0, b1])).toNat = bytesNat e [b0,b1] := by
  have := bytesNat_two_lt e b0 b1
  rw [BitVec.toNat_ofNat]; exact Nat.mod_eq_of_lt this

/-- A bitmap stored in the record's byte order decodes to what it selects first. -/
theorem decode_natBytes (e : Endian) (k : HopIndex) (w : BitVec 16) :
    decode e k (natBytes e 2 w.toNat)
      = match decodeBitmap k w with
        | some i => .ok i
        | none => .error .noMetricClass := by
  have hw := w.isLt
  cases e
  · have hb : natBytes .little 2 w.toNat = [BitVec.ofNat 8 w.toNat, BitVec.ofNat 8 (w.toNat / 256)] := rfl
    have hn : BitVec.ofNat 16 (bytesNat .little [BitVec.ofNat 8 w.toNat, BitVec.ofNat 8 (w.toNat / 256)]) = w := by
      apply BitVec.eq_of_toNat_eq
      simp only [bytesNat, leNat, BitVec.toNat_ofNat]
      omega
    rw [hb, decode_bitmap, hn]
  · have hb : natBytes .big 2 w.toNat = [BitVec.ofNat 8 (w.toNat / 256 ^ 1), BitVec.ofNat 8 (w.toNat / 256 ^ 0)] := rfl
    have hn : BitVec.ofNat 16 (bytesNat .big [BitVec.ofNat 8 (w.toNat / 256 ^ 1), BitVec.ofNat 8 (w.toNat / 256 ^ 0)]) = w := by
      apply BitVec.eq_of_toNat_eq
      simp [bytesNat, beNat]
      omega
    rw [hb, decode_bitmap, hn]

/-- The decoder answers well-formed operations only. -/
theorem decode_wellFormed {e : Endian} {k : HopIndex} {bs : List Byte} {i : Instr} (h : decode e k bs = .ok i) :
    i.wellFormed = true := by
  have hc : ∀ c : BitVec 5, (decodeCondition c).wellFormed = true := by decide
  unfold decode at h
  split at h
  · cases h; exact hc _
  · split at h
    · rename_i h2
      cases h
      unfold decodeBitmap at h2
      split_ifs at h2 <;> cases h2 <;> rfl
    · cases h
  · cases h

/-- The condition word decodes to the outcome of its first condition that holds (R209). -/
theorem decodeCondition_ofBool : ∀ a b c d e : Bool,
    decodeCondition (BitVec.ofBool a ++ BitVec.ofBool b ++ BitVec.ofBool c ++ BitVec.ofBool d ++ BitVec.ofBool e)
      = if a then .reset
        else if b then .processStop
        else if !c then .processSkipMalformed
        else if !d then .processSkipNoint
        else if !e then .processReject
        else .processReport := by
  decide

/-- The condition byte decodes to what its condition word selects. -/
theorem decode_conditionByte (e : Endian) (k : HopIndex) (c : Cfg) (p : Ports) :
    decode e k [conditionByte c p] = .ok (decodeCondition (conditionWord c p)) := by
  simp [decode, conditionByte]

/-- The fetch from bytes runs an operation on the state it was given, or leaves that state. -/
theorem fetchBytes_cases (s : State) (k : HopIndex) (bs : List Byte) :
    fetchBytes s k bs = .quiet s ∨ ∃ i, fetchBytes s k bs = .run i s := by
  unfold fetchBytes
  split
  · exact .inr ⟨_, rfl⟩
  · exact .inl rfl

/-- The state a fetch answers. -/
def Fetched.state (f : Fetched) : State :=
  match f with
  | .run _ s => s
  | .quiet s => s

@[simp] theorem fetchBytes_state (s : State) (k : HopIndex) (bs : List Byte) : (fetchBytes s k bs).state = s := by
  rcases fetchBytes_cases s k bs with h | ⟨i, h⟩ <;> rw [h] <;> rfl

/-- No input changes the byte order of the captured record (R34). -/
theorem fetchInput_recEndian (x : Input) (s : State) : (fetchInput x s).state.cfg.recEndian = s.cfg.recEndian := by
  cases x with
  | ports p =>
    simp only [fetchInput]
    split
    · rw [fetchBytes_state]
    · rfl
  | bitmap k w => simp [fetchInput]
  | invoke p i => rfl
  | configure c => rfl

/-- No fetch changes the byte order of the captured record (R34). -/
theorem fetch_recEndian (s : State) : (fetch s).state.cfg.recEndian = s.cfg.recEndian := by
  unfold fetch
  split
  · rfl
  · exact fetchInput_recEndian _ _

/-- A run of one step more, where the step answers a next state. -/
theorem run_succ_of_step {n : Nat} {s u : State} (h : step s = .next u) :
    Host.Core.run core (n + 1) s = Host.Core.run core n u := by
  have h' : core.step s = .next u := h
  have e : ∀ (M : Host.Core) (k : Nat) (x : M.State), M.run (k + 1) x
      = match M.step x with | .next y => M.run k y | .fault r => .fault r | .refused r => .refused r := fun _ _ _ => rfl
  rw [e core n s, h']

end Sys2Proof.Machine
end

