-- ==== Sys2Proof/Laws/PerInstr.lean ====
section
/-! SUPPORT. The family EncodingMatchesRow: an operation has a word exactly where its row has a pattern that some word decodes
to, and the word the encoder writes matches the row's pattern and is not longer than the row's format. -/

namespace Sys2Proof.Laws.EncodingMatchesRow

/-- In either byte order, the encoder's word for an operation has the value `match` of the operation's row under its mask, and is
one byte where the mask lies in the five condition bits, two where it lies in a bitmap; no word is written for an operation
whose row has no pattern. -/
def Statement (i : Instr) : Prop :=
  ∀ (e : Endian) (bs : List Byte), encode e i = some bs →
    ∃ value mask, i.pattern = some (value, mask) ∧ bytesNat e bs &&& mask = value ∧
      (bs.length = 1 ∧ mask < 32 ∨ bs.length = 2 ∧ 256 ≤ mask)

theorem insSwid (k : HopIndex) : Statement (.insSwid k) := by
  intro e bs h
  cases e <;> cases h <;> exact ⟨_, _, rfl, rfl, .inr ⟨rfl, by decide⟩⟩

theorem insPorts (k : HopIndex) : Statement (.insPorts k) := by
  intro e bs h
  cases e <;> cases h <;> exact ⟨_, _, rfl, rfl, .inr ⟨rfl, by decide⟩⟩

theorem insHoplat (k : HopIndex) : Statement (.insHoplat k) := by
  intro e bs h
  cases e <;> cases h <;> exact ⟨_, _, rfl, rfl, .inr ⟨rfl, by decide⟩⟩

theorem insQocc (k : HopIndex) : Statement (.insQocc k) := by
  intro e bs h
  cases e <;> cases h <;> exact ⟨_, _, rfl, rfl, .inr ⟨rfl, by decide⟩⟩

theorem insIngts (k : HopIndex) : Statement (.insIngts k) := by
  intro e bs h
  cases e <;> cases h <;> exact ⟨_, _, rfl, rfl, .inr ⟨rfl, by decide⟩⟩

theorem insEgts (k : HopIndex) : Statement (.insEgts k) := by
  intro e bs h
  cases e <;> cases h <;> exact ⟨_, _, rfl, rfl, .inr ⟨rfl, by decide⟩⟩

theorem insQcong (k : HopIndex) : Statement (.insQcong k) := by
  intro e bs h
  cases e <;> cases h <;> exact ⟨_, _, rfl, rfl, .inr ⟨rfl, by decide⟩⟩

theorem insTxutil (k : HopIndex) : Statement (.insTxutil k) := by
  intro e bs h
  cases e <;> cases h <;> exact ⟨_, _, rfl, rfl, .inr ⟨rfl, by decide⟩⟩

theorem reset : Statement .reset := by
  intro e bs h
  cases e <;> cases h <;> exact ⟨_, _, rfl, rfl, .inl ⟨rfl, by decide⟩⟩

theorem process : Statement .process := by
  intro e bs h
  cases h

theorem processStop : Statement .processStop := by
  intro e bs h
  cases e <;> cases h <;> exact ⟨_, _, rfl, rfl, .inl ⟨rfl, by decide⟩⟩

theorem processSkipMalformed : Statement .processSkipMalformed := by
  intro e bs h
  cases e <;> cases h <;> exact ⟨_, _, rfl, rfl, .inl ⟨rfl, by decide⟩⟩

theorem processSkipNoint : Statement .processSkipNoint := by
  intro e bs h
  cases e <;> cases h <;> exact ⟨_, _, rfl, rfl, .inl ⟨rfl, by decide⟩⟩

theorem processReject : Statement .processReject := by
  intro e bs h
  cases e <;> cases h <;> exact ⟨_, _, rfl, rfl, .inl ⟨rfl, by decide⟩⟩

theorem processReport : Statement .processReport := by
  intro e bs h
  cases e <;> cases h <;> exact ⟨_, _, rfl, rfl, .inl ⟨rfl, by decide⟩⟩

theorem decode (len : Nat) (raw : List Byte) : Statement (.decode len raw) := by
  intro e bs h
  cases h

theorem encodeHop (k : HopIndex) (bmp : BitVec 16) : Statement (.encodeHop k bmp) := by
  intro e bs h
  cases h

theorem encodeHops : Statement .encodeHops := by
  intro e bs h
  cases h

theorem seqNext : Statement .seqNext := by
  intro e bs h
  cases h

theorem build (sequence reportTs : BitVec 32) (supplied : Bool) : Statement (.build sequence reportTs supplied) := by
  intro e bs h
  cases h

theorem csum (bs : List Byte) : Statement (.csum bs) := by
  intro e bs h
  cases h

end Sys2Proof.Laws.EncodingMatchesRow
end

