-- ==== Sys2Proof/Tests/Slice0.lean ====
section
/-! SUPPORT. The model's own tests, each on one step of a small state. The expected values are those of
spec/95_test_vectors.md (S, K, X: its vectors; "packet A": its section 2.2) or of the examples in the rules named; the
witnesses show states and operands that meet the hypotheses of the statements in Certificates/Slice0/Obligations.lean. -/

namespace Sys2Proof.Tests

open Sys2Proof.Machine

/-- "hop X" of spec/95_test_vectors.md section 0. -/
def hopX : HopFields :=
  { switchId := 0x11223344, ingressPort := 0x0102, egressPort := 0x0304, hopLatency := 0xC8, qId := 0x05, qOcc := 0xABCDEF,
    ingressTs := 0x10000001, egressTs := 0x10000002, qcId := 0x07, qcVal := 0x123456, txUtil := 0xBEEF }

/-- "hop Y" of spec/95_test_vectors.md section 0. -/
def hopY : HopFields :=
  { switchId := 0xAABBCCDD, ingressPort := 0x0A0B, egressPort := 0x0C0D, hopLatency := 0x12C, qId := 0x06, qOcc := 0x00FFEE,
    ingressTs := 0x20000001, egressTs := 0x20000002, qcId := 0x08, qcVal := 0x654321, txUtil := 0xCAFE }

/-- Record A of spec/95_test_vectors.md section 2.2, decoded. -/
def recordA : CapturedRecord :=
  { srcIp := 0x0A000001, dstIp := 0x0A000002, srcPort := 5000, dstPort := 6000, ipVer := 4, l4Proto := 17, intValid := true,
    hop0Valid := true, hop1Valid := false, insCnt := 1, insBitmap := 0x8000, intLength := 5, hop0 := hopX, hop1 := hopY }

/-- The raw bytes of record A. -/
def rawA : List Byte :=
  [0x01, 0x00, 0x00, 0x0A, 0x02, 0x00, 0x00, 0x0A, 0x88, 0x13, 0x70, 0x17, 0x04, 0x11, 0x0E, 0x05, 0x00, 0x80, 0x00, 0x00]
    ++ [0x44, 0x33, 0x22, 0x11, 0x02, 0x01, 0x04, 0x03, 0xC8, 0x00, 0x00, 0x00, 0xEF, 0xCD, 0xAB, 0x05]
    ++ [0x01, 0x00, 0x00, 0x10, 0x02, 0x00, 0x00, 0x10, 0x56, 0x34, 0x12, 0x07, 0xEF, 0xBE, 0x00, 0x00]
    ++ [0xDD, 0xCC, 0xBB, 0xAA, 0x0B, 0x0A, 0x0D, 0x0C, 0x2C, 0x01, 0x00, 0x00, 0xEE, 0xFF, 0x00, 0x06]
    ++ [0x01, 0x00, 0x00, 0x20, 0x02, 0x00, 0x00, 0x20, 0x21, 0x43, 0x65, 0x08, 0xFE, 0xCA, 0x00, 0x00]
    ++ List.replicate 44 0

/-- The test configuration of spec/95_test_vectors.md section 0. -/
def testCfg : Cfg := { dstAddr := 0xC0A80164, hwId := 1 }

/-- An idle engine under the test configuration that holds a record. -/
def holding (r : CapturedRecord) : State := { State.reset with cfg := testCfg, record := r }

/-- Ports that present bytes as a record, with record A's time stamp. -/
def presenting (raw : List Byte) : Ports :=
  { reset := false, stop := false, recIn := some { len := raw.length, raw := raw, capTs32 := 0x5F000010, capIfc := 0 }, txResult := .ok }

/-- An idle engine under the test configuration whose ports are as given. -/
def seeing (p : Ports) : State := { State.reset with cfg := testCfg, ports := p }

/-- The next state of an outcome, where there is one. -/
def next? (o : Host.Outcome State Fault Refusal) : Option State :=
  match o with
  | .next s => some s
  | .fault _ => none
  | .refused _ => none

/-! ### Well-formedness, refused -/

theorem test_wellFormed_refuses_short_raw : (Instr.decode 128 []).wellFormed = false := by decide
theorem test_wellFormed_refuses_long_raw : (Instr.decode 0 [0]).wellFormed = false := by decide
theorem test_wellFormed_admits_any_length : (Instr.decode 2 [1, 2]).wellFormed = true := by decide
theorem test_recIn_refuses_other_length :
    (Input.ports { Ports.quiet with recIn := some { len := 128, raw := [], capTs32 := 0, capIfc := 0 } }).wellFormed = false := by
  decide
theorem test_invoke_refuses_ill_formed_operation : (Input.invoke .quiet (.decode 1 [])).wellFormed = false := by decide
theorem test_memory_refuses_falling_addresses : Memory.wf [(2, 0), (1, 0)] = false := by decide
theorem test_memory_refuses_repeated_address : Memory.wf [(1, 0), (1, 0)] = false := by decide

/-! ### Decoding, words written out from R56 and from the match and mask columns of the opcode table -/

theorem test_decode_insSwid : decode .little .hop1 [0b00000000, 0b10000000] = .ok (.insSwid .hop1) := by decide
theorem test_decode_insPorts : decode .little .hop1 [0b00000000, 0b01000000] = .ok (.insPorts .hop1) := by decide
theorem test_decode_insHoplat : decode .little .hop1 [0b00000000, 0b00100000] = .ok (.insHoplat .hop1) := by decide
theorem test_decode_insQocc : decode .little .hop1 [0b00000000, 0b00010000] = .ok (.insQocc .hop1) := by decide
theorem test_decode_insIngts : decode .little .hop1 [0b00000000, 0b00001000] = .ok (.insIngts .hop1) := by decide
theorem test_decode_insEgts : decode .little .hop1 [0b00000000, 0b00000100] = .ok (.insEgts .hop1) := by decide
theorem test_decode_insQcong : decode .little .hop1 [0b00000000, 0b00000010] = .ok (.insQcong .hop1) := by decide
theorem test_decode_insTxutil : decode .big .hop0 [0b00000001, 0b11111111] = .ok (.insTxutil .hop0) := by decide
theorem test_decode_reset : decode .little .hop1 [0b00011000] = .ok .reset := by decide
theorem test_decode_processStop : decode .little .hop1 [0b00001000] = .ok .processStop := by decide
theorem test_decode_processSkipMalformed : decode .little .hop1 [0b00000011] = .ok .processSkipMalformed := by decide
theorem test_decode_processSkipNoint : decode .little .hop1 [0b00000100] = .ok .processSkipNoint := by decide
theorem test_decode_processReject : decode .little .hop1 [0b00000110] = .ok .processReject := by decide
theorem test_decode_processReport : decode .little .hop1 [0b00000111] = .ok .processReport := by decide
theorem test_decode_reserved_bits_select_nothing : decode .little .hop1 [0xFF, 0x00] = .error .noMetricClass := by decide
theorem test_decode_no_bytes : decode .little .hop1 [] = .error .noSuchFormat := by decide

/-! ### The eight instructions: S1 to S8 -/

theorem test_insSwid : (next? (exec (.insSwid .hop0) (holding recordA))).map State.stack = some [0x11, 0x22, 0x33, 0x44] := by
  decide
theorem test_insPorts : (next? (exec (.insPorts .hop0) (holding recordA))).map State.stack = some [0x01, 0x02, 0x03, 0x04] := by
  decide
theorem test_insHoplat : (next? (exec (.insHoplat .hop1) (holding recordA))).map State.stack = some [0x00, 0x00, 0x01, 0x2C] := by
  decide
theorem test_insQocc : (next? (exec (.insQocc .hop0) (holding recordA))).map State.stack = some [0x05, 0xAB, 0xCD, 0xEF] := by
  decide
theorem test_insIngts : (next? (exec (.insIngts .hop1) (holding recordA))).map State.stack = some [0x20, 0x00, 0x00, 0x01] := by
  decide
theorem test_insEgts : (next? (exec (.insEgts .hop1) (holding recordA))).map State.stack = some [0x20, 0x00, 0x00, 0x02] := by
  decide
theorem test_insQcong : (next? (exec (.insQcong .hop0) (holding recordA))).map State.stack = some [0x07, 0x12, 0x34, 0x56] := by
  decide
theorem test_insTxutil_appends :
    (next? (exec (.insTxutil .hop0) { holding recordA with stack := [0x99] })).map State.stack = some [0x99, 0x00, 0x00, 0xBE, 0xEF] := by
  decide

/-! ### ENCODE_HOP and ENCODE_HOPS: S8b, S8d, S9, S15 -/

theorem test_encodeHop_two_classes : (next? (exec (.encodeHop .hop1 0x1200) (holding recordA))).map State.stack
    = some [0x06, 0x00, 0xFF, 0xEE, 0x08, 0x65, 0x43, 0x21] := by decide
theorem test_encodeHop_reserved_bits : (next? (exec (.encodeHop .hop0 0x00FF) (holding recordA))).map State.stack = some [] := by
  decide
theorem test_encodeHops_hop1_first :
    (next? (exec .encodeHops (holding { recordA with hop1Valid := true, insBitmap := 0xC000, intLength := 8 }))).map State.stack
      = some [0xAA, 0xBB, 0xCC, 0xDD, 0x0A, 0x0B, 0x0C, 0x0D, 0x11, 0x22, 0x33, 0x44, 0x01, 0x02, 0x03, 0x04] := by decide
theorem test_encodeHops_rejects :
    (next? (exec .encodeHops (holding { recordA with hop1Valid := true, insBitmap := 0xFF00, intLength := 19 }))).map State.emitted
      = some [.log (.protocolInconsistency 19 64)] := by decide

/-! ### SEQ_NEXT and CSUM: section 2.4, R90, R94 -/

theorem test_seqNext_first : (next? (exec .seqNext State.reset)).map (fun s => (s.seq, s.ret)) = some (1, 1) := by decide
theorem test_seqNext_wraps :
    (next? (exec .seqNext { State.reset with seq := 0xFFFFFFFF })).map (fun s => (s.seq, s.ret)) = some (0, 0) := by decide
theorem test_csum_example :
    (next? (exec (.csum [0x00, 0x01, 0xF2, 0x03, 0xF4, 0xF5, 0xF6, 0xF7]) State.reset)).map State.ret = some 0x220D := by
  decide +kernel
theorem test_csum_odd_length : (next? (exec (.csum [0x01, 0x02, 0x03]) State.reset)).map State.ret = some 0xFBFD := by
  decide +kernel

/-! ### DECODE, BUILD, the loop and RESET -/

theorem test_decode_record_a : (next? (exec (.decode 128 rawA) (seeing .quiet))).map State.record = some recordA := by
  decide +kernel
theorem test_decode_wrong_length :
    (next? (exec (.decode 1 [0]) (holding recordA))).map (fun s => (s.record, s.emitted))
      = some (recordA, [.log (.malformedRecord 1)]) := by decide
theorem test_build_inner_header_of_packet_a :
    (next? (exec (.build 1 0x5F000010 false) (holding recordA))).bind (fun s => s.out.readBytes 54 20)
      = some [0x45, 0x00, 0x00, 0x3B, 0x00, 0x00, 0x00, 0x00, 0x40, 0x11, 0x66, 0xB0, 0x0A, 0x00, 0x00, 0x01, 0x0A, 0x00, 0x00, 0x02] := by
  decide +kernel
theorem test_build_stops_without_int :
    (next? (exec (.build 1 0 false) (holding { recordA with intValid := false, intLength := 4 }))).map
      (fun s => (s.runState, s.emitted)) = some (.stopped, [.log .preconditionViolation]) := by decide
theorem test_process_report_end_of_packet_a :
    (next? (exec .process (seeing (presenting rawA)))).map
      (fun s => (s.seq, s.emitted.map fun e => match e with | .tx bytes _ _ => bytes.drop 94 | .log _ => []))
      = some (1, [[0x11, 0x22, 0x33, 0x44, 0x11, 0x17, 0x70, 0x00, 0x48, 0x65, 0x6C, 0x6C, 0x6F, 0x20, 0x57, 0x6F, 0x72, 0x6C, 0x64]]) := by
  decide +kernel
theorem test_processStop_with_record_waiting :
    (next? (exec .processStop (seeing { presenting rawA with stop := true }))).map (fun s => (s.seq, s.emitted, s.runState))
      = some (0, [], .stopped) := by decide +kernel
theorem test_processSkipMalformed_empty :
    (next? (exec .processSkipMalformed (seeing (presenting [])))).map (fun s => (s.emitted, s.runState))
      = some ([.log (.malformedRecord 0)], .idle) := by decide +kernel
theorem test_processSkipNoint_before_consistency :
    (next? (exec .processSkipNoint (seeing (presenting ((rawA.set 14 0x0A).set 15 0xFF))))).map (fun s => (s.emitted, s.runState))
      = some ([], .idle) := by decide +kernel
theorem test_processReject_literal_scenario :
    (next? (exec .processReject (seeing (presenting (rawA.set 15 0x04))))).map (fun s => (s.seq, s.emitted))
      = some (0, [.log (.protocolInconsistency 4 4)]) := by decide +kernel
theorem test_processReport_send_failed :
    (next? (exec .processReport (seeing { presenting rawA with txResult := .fail }))).map
      (fun s => (s.seq, s.runState, s.emitted.drop 1)) = some (1, .stopped, [.log .transmitFailure]) := by decide +kernel
theorem test_reset_leaves_stopped :
    (next? (exec .reset { holding recordA with seq := 0x2A, runState := .stopped })).map
      (fun s => (s.seq, s.runState, s.cfg)) = some (0, .idle, testCfg) := by decide

/-- R34: a change of configuration redirects later reports (R236) and leaves the byte order of the record. -/
theorem test_configure_keeps_byte_order :
    (next? (step { State.reset with pending := [.configure { testCfg with recEndian := .big, dstAddr := 0x0A000063 }] })).map
      (fun s => (s.cfg.recEndian, s.cfg.dstAddr)) = some (.little, 0x0A000063) := by decide

/-! ### Witnesses: states and operands that meet the statements' hypotheses -/

theorem witness_DecodedWordMatchesItsTableRow :
    decode .little .hop1 [0x00] = .ok .processSkipMalformed ∧ decode .little .hop1 [0xFF] = .ok .reset ∧
    decode .little .hop1 [0x00, 0x01] = .ok (.insTxutil .hop1) ∧ decode .big .hop0 [0xFF, 0xFF] = .ok (.insSwid .hop0) := by decide
theorem witness_EncodedWordsDecodeBack :
    encode .little (.insSwid .hop0) = some [0x00, 0x80] ∧ encode .big (.insTxutil .hop1) = some [0x01, 0x00] ∧
    encode .little .processSkipMalformed = some [0x00] ∧ encode .big .reset = some [0x10] := by decide
theorem witness_LowBitmapBitsSelectNothing :
    bytesNat .little [0xFF, 0x00] < 256 ∧ ¬bytesNat .big [0x01, 0x00] < 256 := by decide
theorem witness_CapturedRecordRoundTrips :
    (seeing .quiet).runState = .idle ∧ (seeing .quiet).cfg.layout = {} ∧
    ({ testCfg with recEndian := .big } : Cfg).layout = {} := by decide
theorem witness_PlacedWordIsFetched :
    decodeTableWord 5 0x1F = some .reset ∧ decodeTableWord 8 0x07 = some .processReport ∧
    decodeTableWord 16 0x0100 = some (.insTxutil .hop1) := by decide
theorem witness_DecodeAssemblesEveryField :
    (holding recordA).runState = .idle ∧ rawA.length = 128 ∧ (holding recordA).cfg.layout = {} := by decide +kernel
theorem witness_DecodeRejectsEveryOtherLength :
    (holding recordA).runState = .idle ∧ 127 ≠ 128 ∧ 129 ≠ 128 ∧ 0 ≠ 128 := ⟨rfl, by omega, by omega, by omega⟩
theorem witness_DecodeIgnoresReservedBytes :
    (holding recordA).runState = .idle ∧ (holding recordA).cfg.layout = {} ∧ rawA.length = 128 ∧
    ((rawA.set 18 1).set 127 1).length = 128 ∧ rawA ≠ (rawA.set 18 1).set 127 1 ∧
    ∀ a, a < 18 ∨ (20 ≤ a ∧ a < 84) → rawA[a]? = ((rawA.set 18 1).set 127 1)[a]? := by
  refine ⟨by decide, by decide, by decide +kernel, by decide +kernel, by decide +kernel, fun a h => ?_⟩
  rw [List.getElem?_set_ne (by omega), List.getElem?_set_ne (by omega)]

/-- For the statements whose only hypothesis is an idle engine. -/
theorem witness_idle : (holding recordA).runState = .idle ∧ State.reset.runState = .idle := by decide
theorem witness_ClearingABitRemovesItsItem :
    (holding recordA).runState = .idle ∧ (0xFF00#16).getLsbD 8 = true ∧ (0xFF00#16).getLsbD 15 = true := by decide
theorem witness_EncodeHopsSerializesHop1First :
    (holding recordA).runState = .idle ∧ (holding recordA).record.consistent = true ∧
    ({ recordA with hop1Valid := true, insBitmap := 0xFF00, intLength := 20 } : CapturedRecord).consistent = true ∧
    ({ recordA with hop0Valid := false, intLength := 4 } : CapturedRecord).consistent = true := by decide
theorem witness_EncodeHopsRejectsAnInconsistentLength :
    (holding { recordA with intLength := 0 }).runState = .idle ∧
    (4 * ((holding { recordA with intLength := 0 }).record.intLength.toNat : Int) - 16
      ≠ ((holding { recordA with intLength := 0 }).record.stackBytes : Int)) ∧
    (4 * ((holding { recordA with intLength := 255 }).record.intLength.toNat : Int) - 16
      ≠ ((holding { recordA with intLength := 255 }).record.stackBytes : Int)) := by decide
theorem witness_EncodeHopsReadsOnlyValidHops :
    let r : CapturedRecord := { recordA with hop1 := .blank, insBitmap := 0x80FF, insCnt := 31, intValid := false }
    recordA.hop0Valid = r.hop0Valid ∧ recordA.hop1Valid = r.hop1Valid ∧ recordA.intLength = r.intLength ∧
    recordA.insBitmap.extractLsb' 8 8 = r.insBitmap.extractLsb' 8 8 ∧ recordA.hop0 = r.hop0 ∧ recordA ≠ r := by decide
theorem witness_BitmapStepsAmountToEncodeHop :
    ({ holding recordA with pending := [.bitmap .hop0 0xFFFF] } : State).runState = .idle ∧
    0 < popcount ((0xFFFF#16).extractLsb' 8 8) ∧ 0 < popcount ((0x0100#16).extractLsb' 8 8) ∧
    popcount ((0x00FF#16).extractLsb' 8 8) = 0 ∧ popcount ((0x0000#16).extractLsb' 8 8) = 0 := by decide
theorem witness_SeqNextCallsCountWithoutDuplicates : 1 ≤ 1 ∧ 0 < 4294967295 ∧ 4294967295 < 0 + 2 ^ 32 := by decide
theorem witness_ChecksumVerifiesOnceWritten :
    let h : List Byte := [0x45, 0, 0, 0x3B, 0, 0, 0, 0, 0x40, 0x11, 0, 0, 0x0A, 0, 0, 1, 0x0A, 0, 0, 2]
    h.length = 20 ∧ h[10]? = some 0 ∧ h[11]? = some 0 := by decide
theorem witness_BuildWritesTheWireFormat :
    let s : State := { holding recordA with stack := [1, 2, 3, 4] }
    s.runState = .idle ∧ s.record.intValid = true ∧ s.record.consistent = true ∧
    s.stack.length + 16 = 4 * s.record.intLength.toNat := by decide
/-- The largest consistent record: both hops, all eight classes, L = 20 (for InnerChecksumIsStoredHighByteFirst too). -/
theorem witness_ReportsFitTheOutputBuffer :
    let s : State := { holding { recordA with hop1Valid := true, insBitmap := 0xFF00, intLength := 20 } with
      stack := List.replicate 64 7 }
    s.runState = .idle ∧ s.record.intValid = true ∧ s.record.consistent = true ∧ s.record.total = 173 ∧
    s.stack.length + 16 = 4 * s.record.intLength.toNat := by decide
theorem witness_BuildStopsOnARecordWithoutInt :
    (holding .blank).runState = .idle ∧ (holding .blank).record.intValid = false := by decide
theorem witness_BuildRejectsAnInconsistentRecord :
    let s := holding { recordA with intLength := 4 }
    s.runState = .idle ∧ s.record.intValid = true ∧ (4 * (s.record.intLength.toNat : Int) - 16 ≠ (s.record.stackBytes : Int)) := by
  decide
theorem witness_BuildRejectsAStackOfAnotherLength :
    (holding recordA).runState = .idle ∧ (holding recordA).record.intValid = true ∧ (holding recordA).record.consistent = true ∧
    (holding recordA).stack.length + 16 ≠ 4 * (holding recordA).record.intLength.toNat := by decide
theorem witness_ReportIgnoresIpVerAndInvalidHops :
    recordA.hop1Valid = false ∧ hopX ≠ recordA.hop1 ∧ recordA.hop0Valid = true ∧ hopX = recordA.hop0 := by decide
theorem witness_StopRequestStopsTheLoop :
    (seeing { presenting rawA with stop := true }).runState = .idle ∧ (seeing { presenting rawA with stop := true }).ports.stop = true := by
  decide
theorem witness_MalformedRecordIsLoggedAndSkipped :
    (seeing (presenting [0])).runState = .idle ∧ (seeing (presenting [0])).ports.stop = false ∧
    (seeing (presenting [0])).ports.recIn = some { len := 1, raw := [0], capTs32 := 0x5F000010, capIfc := 0 } ∧ 1 ≠ 128 := by decide
theorem witness_RecordWithoutIntIsSkippedSilently :
    (seeing (presenting (rawA.set 14 0x0A))).runState = .idle ∧ (seeing (presenting (rawA.set 14 0x0A))).ports.stop = false ∧
    (rawA.set 14 0x0A).length = 128 ∧ (decodeFields testCfg (rawA.set 14 0x0A)).intValid = false := by decide +kernel
theorem witness_InconsistentRecordIsRejected :
    (seeing (presenting (rawA.set 15 6))).runState = .idle ∧ (rawA.set 15 6).length = 128 ∧
    (decodeFields testCfg (rawA.set 15 6)).intValid = true ∧ (decodeFields testCfg (rawA.set 15 6)).consistent = false := by
  decide +kernel
theorem witness_ConsistentRecordIsReported :
    (seeing (presenting rawA)).runState = .idle ∧ (seeing (presenting rawA)).ports.stop = false ∧ rawA.length = 128 ∧
    (decodeFields testCfg rawA).intValid = true ∧ (decodeFields testCfg rawA).consistent = true := by decide +kernel
theorem witness_ProcessIsTheOutcomeItsConditionSelects :
    (seeing (presenting rawA)).runState = .idle ∧ (seeing (presenting rawA)).ports.reset = false ∧
    (seeing (presenting rawA)).ports.present = true := by decide +kernel
theorem witness_OutcomesThatDoNotApplyDoNothing :
    (presenting [0]).wellFormed = true ∧ (presenting [0]).reset = false ∧
    Instr.processReport ≠ decodeCondition (conditionWord testCfg (presenting [0])) ∧ Ports.quiet.present = false := by decide
theorem witness_PhasesFollowTheTransitionTable :
    (next? (phase testCfg (seeing .quiet))).map State.runState = some .idle ∧
    (next? (phase testCfg (seeing (presenting rawA)))).map State.runState = some .decoding ∧
    (next? (phase testCfg { seeing (presenting [0]) with runState := .decoding })).map State.runState = some .skip ∧
    (next? (phase testCfg { seeing (presenting [0]) with runState := .encoding, record := .blank })).map State.runState
      = some .skip ∧
    (next? (phase testCfg { seeing (presenting rawA) with runState := .skip })).map State.runState = some .idle ∧
    (next? (phase testCfg { seeing (presenting rawA) with runState := .stopped })).map State.runState = some .stopped := by
  decide +kernel
theorem witness_StoppedEngineChangesOnlyByReset :
    ({ holding recordA with runState := .stopped } : State).runState = .stopped ∧ Instr.process ≠ .reset := by decide
theorem witness_EngineWaitsForARecord :
    (seeing .quiet).runState = .idle ∧ (seeing .quiet).ports.stop = false ∧ (seeing .quiet).ports.recIn = none ∧
    (seeing .quiet).pending = [] ∧
    ({ seeing .quiet with pending := [.ports .quiet] } : State).pending = .ports .quiet :: [] := by decide
theorem witness_ResetActsWhateverIsPresented :
    ({ seeing .quiet with runState := .stopped, pending := [.ports { presenting rawA with reset := true, stop := true }] } : State).pending
      = .ports { presenting rawA with reset := true, stop := true } :: [] := by rfl
theorem witness_ConfigurationChangesBetweenSteps :
    ({ State.reset with pending := [.configure testCfg] } : State).pending = .configure testCfg :: [] := by rfl
theorem witness_CounterChangesOnlyByCounting :
    (next? (exec .process (seeing (presenting rawA)))).map State.seq = some 1 ∧
    (next? (exec .processReport (seeing (presenting rawA)))).map State.seq = some 1 := by decide +kernel
theorem witness_ByteOrderIsNeverSwitched :
    (next? (Host.Core.run core 1 { State.reset with pending := [.configure { testCfg with recEndian := .big }] })).isSome = true := by
  decide
/-- For the statements about every operation that answers a next state. -/
theorem witness_exec_answers_next :
    (next? (exec .seqNext State.reset)).map State.seq = some 1 ∧
    (next? (exec .reset { State.reset with seq := 7 })).map State.seq = some 0 ∧
    (next? (exec .process (seeing (presenting [0])))).map (fun s => s.emitted.length) = some 1 := by
  decide
theorem witness_ReportsAreNumberedConsecutively :
    (seeing .quiet).runState.rests = true ∧
    (∀ p ∈ [presenting rawA, Ports.quiet], p.reset = false ∧ p.wellFormed = true) ∧
    (next? (Host.Core.run core 2 { seeing .quiet with pending := [presenting rawA, Ports.quiet].map .ports })).map State.seq = some 1 := by
  decide +kernel
theorem witness_InvariantIsKeptByEveryStep :
    ({ seeing .quiet with pending := [.ports (presenting rawA)] } : State).inv = true ∧
    (next? (step { seeing .quiet with pending := [.ports (presenting [0])] })).isSome = true ∧
    ({ holding recordA with out := [(172, 0)], recBuf := [(0, 1), (127, 2)], runState := .stopped } : State).inv = true := by
  decide +kernel
theorem witness_StepRunsTheDecodedOperation :
    (presenting [0]).present = true ∧
    decode testCfg.recEndian .hop1 [conditionByte testCfg (presenting [0])] = .ok .processSkipMalformed ∧
    decode testCfg.recEndian .hop0 (natBytes testCfg.recEndian 2 (0x0100#16).toNat) = .ok (.insTxutil .hop0) ∧
    (0x00FF#16).toNat < 256 ∧ ¬(0x0100#16).toNat < 256 ∧
    Ports.quiet.reset = false ∧ ({ presenting [0] with reset := true } : Ports).reset = true := by decide

end Sys2Proof.Tests
end

section
/-! PROOF. Progress (O50): an operation fetched within the invariant answers a next state. The only two reasons to stop are reads of a
byte without a value (log 7): of REC, which a presented or invoked buffer of 128 bytes fills, and of OUT, which BUILD writes
before it or the transmission reads it. -/

namespace Sys2Proof.Machine

/-- An operation answers a next state: neither a fault nor a refusal. -/
def Completes (o : Host.Outcome State Fault Refusal) : Prop := ∃ t, o = .next t

@[simp] theorem completes_next (t : State) : Completes (.next t) := ⟨t, rfl⟩

/-- Outside IDLE an operation leaves the state as it is (log 12), so what matters is what it answers in IDLE. -/
theorem completes_whenIdle {s : State} {o : Host.Outcome State Fault Refusal} (h : s.runState = .idle → Completes o) :
    Completes (s.whenIdle o) := by
  rcases whenIdle_cases s o with ⟨hi, ho⟩ | ⟨-, ho⟩ <;> rw [ho]
  · exact h hi
  · exact completes_next s

/-! ### What the two faults would need -/

/-- A presented record that claims 128 bytes brings them (R21), so no byte of REC is left without a value. -/
theorem decodeRec_of_presented {p : Ports} {r : RecIn} (c : Cfg) (hp : p.wellFormed = true) (hr : p.recIn = some r)
    (hl : r.len = recLen) : decodeRec c (loadRec r.raw) = some (decodeFields c r.raw) := by
  have hraw : r.raw.length = r.len := by simpa [Ports.wellFormed, RecIn.wellFormed, hr] using hp
  exact decodeRec_loadRec c r.raw (hraw.trans hl)

/-- ENCODE_HOPS reads no buffer: it serializes the stack or raises ProtocolInconsistency. -/
theorem encodeHopsOp_total (r : CapturedRecord) :
    (∃ bs, encodeHopsOp r = .done bs) ∨ ∃ k, encodeHopsOp r = .raised k := by
  cases hc : r.consistent
  · exact .inr ⟨_, encodeHopsOp_inconsistent r hc⟩
  · exact .inl ⟨_, encodeHopsOp_consistent r hc⟩

/-! ### The operations that can stop -/

/-- PROCESS in IDLE ends in one of the rows of R188 or waits (R190). -/
theorem execProcess_completes {s : State} (hp : s.ports.wellFormed = true) (h : s.runState = .idle) :
    Completes (execProcess s) := by
  cases hs : s.ports.stop with
  | true => exact ⟨_, execProcess_stop h hs⟩
  | false =>
    cases hr : s.ports.recIn with
    | none => exact ⟨_, execProcess_wait h hs hr⟩
    | some r =>
      by_cases hl : r.len = recLen
      · have hd := decodeRec_of_presented s.cfg hp hr hl
        cases hv : (decodeFields s.cfg r.raw).intValid with
        | false => exact ⟨_, execProcess_skip h hs hr hl hd hv⟩
        | true =>
          cases hc : (decodeFields s.cfg r.raw).consistent with
          | false => exact ⟨_, execProcess_reject h hs hr hl hd hv hc⟩
          | true => exact ⟨_, execProcess_report h hs hr hl hd hv hc⟩
      · exact ⟨_, execProcess_malformed h hs hr hl⟩

theorem execProcessSkipMalformed_completes (s : State) : Completes (execProcessSkipMalformed s) := by
  refine completes_whenIdle fun _ => ?_
  cases s.ports.recIn with
  | none => exact completes_next _
  | some r => dsimp only; split <;> exact completes_next _

theorem execProcessSkipNoint_completes {s : State} (hp : s.ports.wellFormed = true) : Completes (execProcessSkipNoint s) := by
  refine completes_whenIdle fun _ => ?_
  cases hr : s.ports.recIn with
  | none => exact completes_next _
  | some r =>
    by_cases hg : s.ports.stop = true ∨ r.len ≠ recLen
    · simp [hg]
    · have hd := decodeRec_of_presented s.cfg hp hr (by simpa using (not_or.1 hg).2)
      simp [hg, hd]

theorem execProcessReject_completes {s : State} (hp : s.ports.wellFormed = true) : Completes (execProcessReject s) := by
  refine completes_whenIdle fun _ => ?_
  cases hr : s.ports.recIn with
  | none => exact completes_next _
  | some r =>
    by_cases hg : s.ports.stop = true ∨ r.len ≠ recLen
    · simp [hg]
    · have hd := decodeRec_of_presented s.cfg hp hr (by simpa using (not_or.1 hg).2)
      simp only [if_neg hg, hd]
      split <;> exact completes_next _

/-- PROCESS.REPORT in IDLE: where its condition holds the whole of OUT it transmits was written by BUILD. -/
theorem execProcessReport_completes {s : State} (hp : s.ports.wellFormed = true) (h : s.runState = .idle) :
    Completes (execProcessReport s) := by
  cases hr : s.ports.recIn with
  | none => simp [execProcessReport, whenIdle_of_idle h, hr]
  | some r =>
    by_cases hg : s.ports.stop = true ∨ r.len ≠ recLen
    · simp [execProcessReport, whenIdle_of_idle h, hr, hg]
    · obtain ⟨hs, hl⟩ : s.ports.stop = false ∧ r.len = recLen := by simpa using hg
      have hd := decodeRec_of_presented s.cfg hp hr hl
      by_cases hv : (decodeFields s.cfg r.raw).intValid = true ∧ (decodeFields s.cfg r.raw).consistent = true
      · exact ⟨_, execProcessReport_report h hs hr hl hd hv.1 hv.2⟩
      · have hn : (!(decodeFields s.cfg r.raw).intValid) = true ∨ (!(decodeFields s.cfg r.raw).consistent) = true := by
          simpa [imp_iff_not_or] using hv
        simp only [execProcessReport, whenIdle_of_idle h, hr, if_neg hg, hd, if_pos hn, completes_next]

/-- DECODE of as many bytes as its operand claims (R100). -/
theorem execDecode_completes {len : Nat} {raw : List Byte} (s : State) (h : raw.length = len) :
    Completes (execDecode len raw s) := by
  refine completes_whenIdle fun _ => ?_
  rw [decodeOp_wellFormed s.cfg len raw h]
  by_cases hl : len ≠ recLen
  · simp [hl]
  · simp [hl]

theorem execEncodeHops_completes (s : State) : Completes (execEncodeHops s) := by
  refine completes_whenIdle fun _ => ?_
  rcases encodeHopsOp_total s.record with ⟨bs, h⟩ | ⟨k, h⟩ <;> simp [h]

theorem execBuild_completes (sequence reportTs : BitVec 32) (supplied : Bool) (s : State) :
    Completes (execBuild sequence reportTs supplied s) := by
  refine completes_whenIdle fun _ => ?_
  rcases buildOp_total s.cfg s.record sequence reportTs (if supplied then some s.stack else none) with ⟨m, h⟩ | ⟨k, h⟩ <;>
    simp [h]

/-! ### Every operation, and the fetch -/

/-- A well-formed operation completes beside well-formed ports, in every loop state. -/
theorem exec_completes {i : Instr} {s : State} (hp : s.ports.wellFormed = true) (hi : i.wellFormed = true) :
    Completes (exec i s) := by
  by_cases hs : s.runState = .idle
  · cases i with
    | reset => exact completes_next _
    | process => exact execProcess_completes hp hs
    | processSkipMalformed => exact execProcessSkipMalformed_completes s
    | processSkipNoint => exact execProcessSkipNoint_completes hp
    | processReject => exact execProcessReject_completes hp
    | processReport => exact execProcessReport_completes hp hs
    | decode len raw => exact execDecode_completes s (by simpa [Instr.wellFormed] using hi)
    | encodeHops => exact execEncodeHops_completes s
    | build sequence reportTs supplied => exact execBuild_completes sequence reportTs supplied s
    | insSwid | insPorts | insHoplat | insQocc | insIngts | insEgts | insQcong | insTxutil | processStop | encodeHop | seqNext
    | csum => exact completes_whenIdle fun _ => completes_next _
  · by_cases hr : i = .reset
    · subst hr; exact completes_next _
    · exact ⟨s, exec_of_not_idle hs hr⟩

/-- What a fetch hands on is well formed: the operation, and the ports it runs beside. -/
def Fetched.WellFormed : Fetched → Prop
  | .run i t => i.wellFormed = true ∧ t.ports.wellFormed = true
  | .quiet _ => True

theorem fetchBytes_wellFormed {s : State} (k : HopIndex) (bs : List Byte) (hp : s.ports.wellFormed = true) :
    (fetchBytes s k bs).WellFormed := by
  unfold fetchBytes
  split
  · exact ⟨decode_wellFormed ‹_›, hp⟩
  · trivial

theorem fetchInput_wellFormed {x : Input} {s : State} (hx : x.wellFormed = true) (hp : s.ports.wellFormed = true) :
    (fetchInput x s).WellFormed := by
  cases x with
  | ports p =>
    simp only [fetchInput]
    split
    · exact fetchBytes_wellFormed _ _ hx
    · trivial
  | bitmap k w => exact fetchBytes_wellFormed _ _ hp
  | invoke p i =>
    obtain ⟨hpp, hi⟩ : p.wellFormed = true ∧ i.wellFormed = true := by simpa [Input.wellFormed] using hx
    refine ⟨?_, hpp⟩
    split
    · rfl
    · exact hi
  | configure c => trivial

/-- The part of the invariant that the fetch reads: what is presented, and what is still to come, is well formed. -/
theorem inv_inputs {s : State} (h : s.inv = true) :
    s.ports.wellFormed = true ∧ ∀ x ∈ s.pending, x.wellFormed = true := by
  unfold State.inv at h
  rw [Bool.and_eq_true, Bool.and_eq_true] at h
  obtain ⟨⟨-, hports⟩, hpending⟩ := h
  exact ⟨hports, List.all_eq_true.1 hpending⟩

theorem fetch_wellFormed {s : State} (h : s.inv = true) : (fetch s).WellFormed := by
  obtain ⟨hports, hpending⟩ := inv_inputs h
  unfold fetch
  cases hx : s.pending with
  | nil => trivial
  | cons x rest => exact fetchInput_wellFormed (hpending x (by simp [hx])) hports

/-- Settles O50: what the fetch hands on within the invariant is well formed, and a well-formed operation completes. -/
theorem everyStepCompletes : Obligations.EveryStepCompletes := by
  intro s h
  have hf := fetch_wellFormed h
  cases hfetch : fetch s with
  | run i t =>
    rw [hfetch] at hf
    obtain ⟨hi, hp⟩ := hf
    rw [step_of_fetch_run hfetch]
    exact exec_completes hp hi
  | quiet t => exact ⟨t, step_of_fetch_quiet hfetch⟩

end Sys2Proof.Machine
end

section
/-! PROOF. The state (O48, O17, O29, O44, O45, O54, O40, O42, O43, O49): what every step keeps, what an operation may write, and what
ENCODE_HOPS and BUILD read. The statements about every operation go through `exec_cases`, which says once what a next state can be. -/

namespace Sys2Proof.Machine

/-! ### Inputs of the engine (R20) -/

theorem IterationResult.inputs_eq {i : Instr} {s t : State} (h : IterationResult i s t) :
    t.cfg = s.cfg ∧ t.ports = s.ports ∧ t.pending = s.pending := by
  cases h with
  | unchanged | stop | skip | rejected => exact ⟨rfl, rfl, rfl⟩
  | reported d r => exact afterReport_inputs s d r

/-- Settles O45: every next state of `exec_cases` has the inputs of the state before. -/
theorem noOperationWritesTheConfiguration : Obligations.NoOperationWritesTheConfiguration := by
  intro i s t he
  cases exec_cases he with
  | iteration _ h => exact h.inputs_eq
  | unchanged | reset | stacked | rejected | decoded | counted | returned | built => exact ⟨rfl, rfl, rfl⟩

/-! ### The invariant of the resting engine (R17, R30 to R33) -/

/-- A buffer of `n` bytes: canonical form, and bytes only at addresses that exist. -/
def Memory.Within (n : Nat) (m : Memory) : Prop :=
  m.wf = true ∧ ∀ c ∈ m, c.1 < n

theorem Memory.within_nil (n : Nat) : Memory.Within n [] :=
  ⟨rfl, by simp⟩

theorem loadRec_within (raw : List Byte) : (loadRec raw).Within recLen :=
  ⟨loadRec_wf raw, loadRec_bound raw⟩

theorem buildOp_done_within {c : Cfg} {r : CapturedRecord} {sq ts : BitVec 32} {st : Option (List Byte)} {m : Memory}
    (h : buildOp c r sq ts st = .done m) : m.Within outCap := by
  obtain ⟨st', hc, hl, ho⟩ := buildOp_done h
  exact buildOut_canonical hc hl ho

/-- The part of the invariant that is the engine's own. -/
structure State.Resting (s : State) : Prop where
  rests : s.runState.rests = true
  recBuf : s.recBuf.Within recLen
  out : s.out.Within outCap

/-- The invariant is the engine's part, and that what is presented and what is still to come is well formed (R21). -/
theorem inv_iff {s : State} :
    s.inv = true ↔ s.Resting ∧ s.ports.wellFormed = true ∧ ∀ x ∈ s.pending, x.wellFormed = true := by
  simp only [State.inv, Bool.and_eq_true, List.all_eq_true, decide_eq_true_eq]
  constructor
  · rintro ⟨⟨⟨⟨⟨⟨hrest, hrec⟩, hrecB⟩, hout⟩, houtB⟩, hports⟩, hpending⟩
    exact ⟨⟨hrest, ⟨hrec, hrecB⟩, ⟨hout, houtB⟩⟩, hports, hpending⟩
  · rintro ⟨⟨hrest, ⟨hrec, hrecB⟩, ⟨hout, houtB⟩⟩, hports, hpending⟩
    exact ⟨⟨⟨⟨⟨⟨hrest, hrec⟩, hrecB⟩, hout⟩, houtB⟩, hports⟩, hpending⟩

theorem resting_endIteration (s : State) {r : RunState} (h : r.rests = true) : (s.endIteration r).Resting :=
  ⟨h, Memory.within_nil _, Memory.within_nil _⟩

theorem loopAfter_rests (k : ErrorKind) : k.loopAfter.rests = true := by
  cases k <;> rfl

theorem IterationResult.resting {i : Instr} {s t : State} (h : IterationResult i s t) (hs : s.Resting) : t.Resting := by
  cases h with
  | unchanged => exact hs
  | stop | skip | rejected => exact resting_endIteration _ rfl
  | reported d r => exact resting_endIteration _ (afterReport_rests s d r)

/-- An operation leaves the engine resting, its buffers canonical: a buffer is kept, emptied, or written by DECODE or BUILD. -/
theorem exec_resting {i : Instr} {s t : State} (he : exec i s = .next t) (hs : s.Resting) : t.Resting := by
  obtain ⟨hrest, hrec, hout⟩ := hs
  cases exec_cases he with
  | iteration _ h => exact h.resting ⟨hrest, hrec, hout⟩
  | unchanged | stacked | counted | returned => exact ⟨hrest, hrec, hout⟩
  | reset => exact ⟨rfl, Memory.within_nil _, Memory.within_nil _⟩
  | rejected k st o ho =>
    refine ⟨loopAfter_rests k, hrec, ?_⟩
    rcases ho with rfl | rfl
    · exact Memory.within_nil _
    · exact hout
  | decoded d raw => exact ⟨hrest, loadRec_within raw, hout⟩
  | built sq ts st m h => exact ⟨hrest, hrec, buildOp_done_within h⟩

theorem exec_keeps_inv {i : Instr} {s t : State} (he : exec i s = .next t) (hs : s.inv = true) : t.inv = true := by
  obtain ⟨hrest, hports, hpending⟩ := inv_iff.1 hs
  obtain ⟨-, hp, hq⟩ := noOperationWritesTheConfiguration i s t he
  exact inv_iff.2 ⟨exec_resting he hrest, hp ▸ hports, hq ▸ hpending⟩

theorem restOfBitmap_wellFormed {k : HopIndex} {w : BitVec 16} {rest : List Input} (h : ∀ x ∈ rest, x.wellFormed = true) :
    ∀ x ∈ restOfBitmap k w rest, x.wellFormed = true := by
  unfold restOfBitmap
  split
  · exact h
  · exact List.forall_mem_cons.2 ⟨rfl, h⟩

/-- Presenting a well-formed input writes the ports, `pending` or the configuration only. -/
theorem fetchInput_keeps_inv {x : Input} {s : State} (hx : x.wellFormed = true) (hs : s.inv = true) :
    (fetchInput x s).state.inv = true := by
  obtain ⟨⟨hrest, hrec, hout⟩, hports, hpending⟩ := inv_iff.1 hs
  cases x with
  | ports p =>
    have hshown : ({ s with ports := p } : State).inv = true := inv_iff.2 ⟨⟨hrest, hrec, hout⟩, hx, hpending⟩
    simp only [fetchInput]
    split
    · rwa [fetchBytes_state]
    · exact hshown
  | bitmap k w =>
    simp only [fetchInput, fetchBytes_state]
    exact inv_iff.2 ⟨⟨hrest, hrec, hout⟩, hports, restOfBitmap_wellFormed hpending⟩
  | invoke p i =>
    have hp : p.wellFormed = true := (Bool.and_eq_true_iff.1 hx).1
    exact inv_iff.2 ⟨⟨hrest, hrec, hout⟩, hp, hpending⟩
  | configure c => exact inv_iff.2 ⟨⟨hrest, hrec, hout⟩, hports, hpending⟩

theorem fetch_keeps_inv {s : State} (hs : s.inv = true) : (fetch s).state.inv = true := by
  unfold fetch
  cases hp : s.pending with
  | nil => exact hs
  | cons x rest =>
    obtain ⟨⟨hrest, hrec, hout⟩, hports, hpending⟩ := inv_iff.1 hs
    obtain ⟨hx, htail⟩ := List.forall_mem_cons.1 (hp ▸ hpending)
    exact fetchInput_keeps_inv hx (inv_iff.2 ⟨⟨hrest, hrec, hout⟩, hports, htail⟩)

/-- A step answers the state the fetch leaves, or what an operation makes of it. -/
theorem step_cases {s t : State} (h : step s = .next t) : t = (fetch s).state ∨ ∃ i, exec i (fetch s).state = .next t := by
  cases hf : fetch s with
  | run i u => exact .inr ⟨i, (step_of_fetch_run hf).symm.trans h⟩
  | quiet u =>
    rw [step_of_fetch_quiet hf] at h
    cases h
    exact .inl rfl

/-- Settles O48: the fetch keeps the invariant, and so does every operation. -/
theorem invariantIsKeptByEveryStep : Obligations.InvariantIsKeptByEveryStep := by
  intro s t hs h
  have hf := fetch_keeps_inv hs
  rcases step_cases h with rfl | ⟨i, he⟩
  · exact hf
  · exact exec_keeps_inv he hf

/-- Settles O49: the reset state rests in IDLE, its buffers are empty and nothing is presented to it. -/
theorem invariantHoldsAfterReset : Obligations.InvariantHoldsAfterReset :=
  inv_iff.2 ⟨resting_endIteration State.reset (r := .idle) rfl, rfl, List.forall_mem_nil _⟩

/-! ### The hop stack and BUILD read the fields they use only (R13) -/

/-- Bits 7:0 of a bitmap select nothing (R57). -/
theorem hopItems_eq_of_high_byte (h : HopFields) {a b : BitVec 16} (hab : a.extractLsb' 8 8 = b.extractLsb' 8 8) :
    hopItems h a = hopItems h b := by
  have bit (i : Nat) (h8 : 8 ≤ i) (h16 : i < 16) : a.getLsbD i = b.getLsbD i := getLsbD_eq_of_high_byte hab i h8 h16
  simp only [hopItems, bit 15, bit 14, bit 13, bit 12, bit 11, bit 10, bit 9, bit 8, Nat.reduceLeDiff, Nat.reduceLT]

/-- A hop group that is serialized only where its flag is set reads the hop's fields only there. -/
theorem groupIfValid_congr {v v' : Bool} {h h' : HopFields} {a b : BitVec 16} (hv : v = v') (hh : v = true → h = h')
    (hab : a.extractLsb' 8 8 = b.extractLsb' 8 8) :
    (if v then hopItems h a else []) = (if v' then hopItems h' b else []) := by
  subst hv
  cases v with
  | false => rfl
  | true => simp only [if_true, hh rfl, hopItems_eq_of_high_byte h' hab]

/-- Settles O17: the two hop groups are the same, and the length test reads nothing else but `int_length`. -/
theorem encodeHopsReadsOnlyValidHops : Obligations.EncodeHopsReadsOnlyValidHops := by
  intro r r' hv0 hv1 hlen hbmp hh0 hh1
  have hbytes : hopsBytes r = hopsBytes r' :=
    congrArg₂ (· ++ ·) (groupIfValid_congr hv1 hh1 hbmp) (groupIfValid_congr hv0 hh0 hbmp)
  have hwords : r.words = r'.words := congrArg BitVec.toNat hlen
  have hdeclares (n : Nat) : r.declares n = r'.declares n := by simp only [CapturedRecord.declares, hwords]
  simp only [encodeHopsOp, hbytes, hwords, hdeclares]

/-- What BUILD's writing part leaves in OUT: the checksum never reads a byte without a value. -/
theorem buildOut_eq (c : Cfg) (r : CapturedRecord) (sq ts : BitVec 32) (st : List Byte) :
    buildOut c r sq ts st = some (Memory.applyWrites (outBeforeChecksum c r sq ts)
      (memWrite 64 2 (csum16 (wireInnerIpv4 c r 0)).toNat :: writesAfterChecksum r st)) := by
  unfold buildOut
  simp only [outBeforeChecksum_header]

/-- The record with any other values in `ip_ver` and in the fields of both hops. -/
def CapturedRecord.withOthers (r : CapturedRecord) (v : BitVec 8) (h0 h1 : HopFields) : CapturedRecord :=
  { r with ipVer := v, hop0 := h0, hop1 := h1 }

section
variable (r : CapturedRecord) (v : BitVec 8) (h0 h1 : HopFields)

@[simp] theorem withOthers_intValid : (r.withOthers v h0 h1).intValid = r.intValid := rfl
@[simp] theorem withOthers_words : (r.withOthers v h0 h1).words = r.words := rfl
@[simp] theorem withOthers_total : (r.withOthers v h0 h1).total = r.total := rfl
@[simp] theorem withOthers_stackBytes : (r.withOthers v h0 h1).stackBytes = r.stackBytes := rfl
@[simp] theorem withOthers_declares (n : Nat) : (r.withOthers v h0 h1).declares n = r.declares n := rfl
@[simp] theorem withOthers_consistent : (r.withOthers v h0 h1).consistent = r.consistent := rfl

@[simp] theorem writesInnerIpv4_withOthers (c : Cfg) (total : Nat) :
    writesInnerIpv4 c (r.withOthers v h0 h1) total = writesInnerIpv4 c r total := rfl
@[simp] theorem wireInnerIpv4_withOthers (c : Cfg) (checksum : BitVec 16) :
    wireInnerIpv4 c (r.withOthers v h0 h1) checksum = wireInnerIpv4 c r checksum := rfl
@[simp] theorem writesInnerUdp_withOthers (total : Nat) :
    writesInnerUdp (r.withOthers v h0 h1) total = writesInnerUdp r total := rfl
@[simp] theorem writesShim_withOthers : writesShim (r.withOthers v h0 h1) = writesShim r := rfl
@[simp] theorem writesIntHeader_withOthers : writesIntHeader (r.withOthers v h0 h1) = writesIntHeader r := rfl
@[simp] theorem writesTail_withOthers : writesTail (r.withOthers v h0 h1) = writesTail r := rfl
@[simp] theorem writesPayload_withOthers : writesPayload (r.withOthers v h0 h1) = writesPayload r := rfl

theorem outBeforeChecksum_withOthers (c : Cfg) (sq ts : BitVec 32) :
    outBeforeChecksum c (r.withOthers v h0 h1) sq ts = outBeforeChecksum c r sq ts := by
  simp only [outBeforeChecksum, withOthers_total, writesInnerIpv4_withOthers]

theorem writesAfterChecksum_withOthers (st : List Byte) :
    writesAfterChecksum (r.withOthers v h0 h1) st = writesAfterChecksum r st := by
  simp only [writesAfterChecksum, withOthers_total, writesInnerUdp_withOthers, writesShim_withOthers,
    writesIntHeader_withOthers, writesTail_withOthers, writesPayload_withOthers]

theorem buildOut_withOthers (c : Cfg) (sq ts : BitVec 32) (st : List Byte) :
    buildOut c (r.withOthers v h0 h1) sq ts st = buildOut c r sq ts st := by
  simp only [buildOut_eq, outBeforeChecksum_withOthers, writesAfterChecksum_withOthers, wireInnerIpv4_withOthers]

/-- With the stack given, BUILD writes no field of a hop and not `ip_ver`. -/
theorem buildWith_withOthers (c : Cfg) (sq ts : BitVec 32) (st : List Byte) :
    buildWith c (r.withOthers v h0 h1) sq ts st = buildWith c r sq ts st := by
  simp only [buildWith, buildOut_withOthers, withOthers_consistent, withOthers_declares, withOthers_words,
    withOthers_stackBytes]

end

/-- Settles O29: ENCODE_HOPS serializes the same stack, and around a given stack BUILD reads neither `ip_ver` nor a hop. -/
theorem reportIgnoresIpVerAndInvalidHops : Obligations.ReportIgnoresIpVerAndInvalidHops := by
  intro c r sequence reportTs v h0 h1 hh0 hh1
  have hstack : encodeHopsOp (r.withOthers v h0 h1) = encodeHopsOp r :=
    encodeHopsReadsOnlyValidHops _ r rfl rfl rfl rfl hh0 hh1
  change buildOp c (r.withOthers v h0 h1) sequence reportTs none = buildOp c r sequence reportTs none
  simp only [buildOp, withOthers_intValid, hstack, buildWith_withOthers]

/-! ### The counter (R16, R182, R183) -/

theorem IterationResult.seq_cases {i : Instr} {s t : State} (h : IterationResult i s t) :
    t.seq = s.seq ∨ (i = .process ∨ i = .processReport) ∧ ∃ d r, t = s.afterReport d r := by
  cases h with
  | unchanged | stop | skip | rejected => exact .inl rfl
  | reported d r _ hi => exact .inr ⟨hi, d, r, rfl⟩

/-- The four ways an operation can leave the counter. -/
theorem exec_seq_cases {i : Instr} {s t : State} (he : exec i s = .next t) :
    t.seq = s.seq ∨ i = .reset ∨ (i = .seqNext ∧ t.seq = s.seq + 1) ∨
      ((i = .process ∨ i = .processReport) ∧ ∃ d r, t = s.afterReport d r) := by
  cases exec_cases he with
  | iteration _ h => exact h.seq_cases.imp id fun hr => .inr (.inr hr)
  | unchanged | stacked | rejected | decoded | returned | built => exact .inl rfl
  | reset hi => exact .inr (.inl hi)
  | counted hi => exact .inr (.inr (.inl ⟨hi, rfl⟩))

/-- An iteration that reports hands exactly one report to `tx`, and it carries the new number. -/
theorem afterReport_emits_one_stamped (s : State) (d : CapturedRecord) (r : RecIn) :
    ∃ es : List Emission, (s.afterReport d r).emitted = s.emitted ++ es ∧ (es.filter Emission.isTx).length = 1 ∧
      es.filterMap Emission.stamp = [(s.afterReport d r).seq.toNat] := by
  obtain ⟨es, he, hes⟩ := afterReport_emitted s d r
  refine ⟨_, he, ?_, ?_⟩
  · rcases hes with rfl | rfl <;> rfl
  · rw [List.filterMap_cons_some (stamp_wirePacket ..), afterReport_seq]
    rcases hes with rfl | rfl <;> rfl

/-- Settles O44: each clause, in each of the four cases of `exec_seq_cases`. -/
theorem counterChangesOnlyByCounting : Obligations.CounterChangesOnlyByCounting := by
  intro i s t he
  rcases exec_seq_cases he with hseq | rfl | ⟨rfl, hseq⟩ | ⟨hi, d, r, rfl⟩
  · exact ⟨fun hne => absurd hseq hne, fun _ => .inl hseq, fun _ hne => absurd hseq hne⟩
  · exact ⟨fun _ => by simp, fun hne => absurd rfl hne, fun hi => by simp at hi⟩
  · exact ⟨fun _ => by simp, fun _ => .inr hseq, fun hi => by simp at hi⟩
  · refine ⟨fun _ => ?_, fun _ => .inr (afterReport_seq s d r), fun _ _ => afterReport_emits_one_stamped s d r⟩
    rcases hi with rfl | rfl <;> simp

/-! ### The size of a report (R15, R33) -/

theorem popcount_le {w : Nat} (v : BitVec w) : popcount v ≤ w := by
  simpa [popcount] using List.length_filter_le (fun i => v.getLsbD i) (List.range w)

/-- Two hops of at most eight four-byte items. -/
theorem stackBytes_le (r : CapturedRecord) : r.stackBytes ≤ 64 := by
  have hhops : r.nhops ≤ 2 := Nat.le_of_lt_succ (nhops_lt_three r)
  have hitems : r.hopBytes ≤ 32 := Nat.mul_le_mul_left 4 (popcount_le _)
  exact Nat.mul_le_mul hhops hitems

theorem intLength_le_of_consistent {r : CapturedRecord} (h : r.consistent = true) : r.intLength.toNat ≤ 20 := by
  have hdecl : r.stackBytes + 16 = 4 * r.intLength.toNat := (declares_iff r r.stackBytes).1 h
  have := stackBytes_le r
  omega

/-- Settles O54: a consistent record has at most 64 bytes of stack, and BUILD writes the TOTAL bytes of the packet only. -/
theorem reportsFitTheOutputBuffer : Obligations.ReportsFitTheOutputBuffer := by
  refine ⟨fun r hc => ?_, fun s sequence reportTs supplied hidle hvalid hc hstack => ?_⟩
  · have hL := intLength_le_of_consistent hc
    have htotal : r.total = 93 + 4 * r.intLength.toNat := rfl
    exact ⟨hL, htotal, by omega⟩
  · have hgiven : ∀ b, (if supplied then some s.stack else none) = some b → b.length + 16 = 4 * s.record.words := by
      intro b hb
      cases supplied with
      | false => cases hb
      | true => cases hb; exact hstack rfl
    obtain ⟨m, hm, hread⟩ := buildOp_spec s.cfg s.record sequence reportTs _ hvalid hc hgiven
    refine ⟨{ s with out := m }, ?_, fun a ha => ?_⟩
    · simp only [exec, execBuild, whenIdle_of_idle hidle, hm]
    · have hlen : ((if supplied then some s.stack else none).getD (wireStack s.record)).length + 16 = 4 * s.record.words := by
        cases supplied with
        | false => exact wireStack_length_of_consistent _ hc
        | true => exact hstack rfl
      have hL : s.record.words ≤ 20 := intLength_le_of_consistent hc
      have hend := wirePacket_length s.cfg s.record sequence reportTs _ hlen
      rw [hread, List.getElem?_eq_none (by omega)]

/-! ### RESET and the configuration (R23, R34, R230) -/

/-- Settles O40: RESET ends the iteration in IDLE, in whatever loop state, and clears the counter. -/
theorem resetClearsTheEngine : Obligations.ResetClearsTheEngine := by
  intro s
  rfl

/-- Settles O42: a configuration is fetched without an operation, so the step answers the reconfigured state. -/
theorem configurationChangesBetweenSteps : Obligations.ConfigurationChangesBetweenSteps := by
  intro s c rest hp
  have hf : fetch s = .quiet (State.reconfigure { s with pending := rest } c) := by simp only [fetch, hp, fetchInput]
  exact step_of_fetch_quiet hf

/-- Settles O43: both buffers are empty after reset, so no address reads as a byte. -/
theorem resetStateHoldsTheResetValues : Obligations.ResetStateHoldsTheResetValues :=
  ⟨rfl, rfl, fun a => ⟨Memory.read_nil a, Memory.read_nil a⟩⟩

end Sys2Proof.Machine
end

section
/-! PROOF. Runs of the engine (O47, O53): what every step of a run keeps, and how the reports of a run are numbered. Both go by
induction over the run, one step at a time. -/

namespace Sys2Proof.Machine

/-- A run of one step more that completes is a step that completes, and a run from there. -/
theorem run_succ_cases {M : Host.Core} {n : Nat} {s t : M.State} (h : M.run (n + 1) s = .next t) :
    ∃ u, M.step s = .next u ∧ M.run n u = .next t := by
  unfold Host.Core.run at h
  cases hs : M.step s with
  | next u => exact ⟨u, rfl, by simpa only [hs] using h⟩
  | fault r => simp only [hs] at h; cases h
  | refused r => simp only [hs] at h; cases h

/-! ### The byte order of the record (R34) -/

/-- The fetch passes over a byte order that a new configuration brings (log 23), and no operation writes the configuration. -/
theorem step_keeps_recEndian {s t : State} (h : step s = .next t) : t.cfg.recEndian = s.cfg.recEndian := by
  rcases step_cases h with rfl | ⟨i, he⟩
  · exact fetch_recEndian s
  · obtain ⟨hcfg, -, -⟩ := noOperationWritesTheConfiguration i _ t he
    rw [hcfg, fetch_recEndian]

/-- Settles O53, by induction on the number of steps. -/
theorem byteOrderIsNeverSwitched : Obligations.ByteOrderIsNeverSwitched := by
  intro n
  induction n with
  | zero =>
    intro s t h
    cases h
    rfl
  | succ n ih =>
    intro s t h
    obtain ⟨u, hstep, hrun⟩ := run_succ_cases h
    exact (ih u t hrun).trans (step_keeps_recEndian hstep)

/-! ### The numbers of the reports (R39, R181, R183) -/

/-- The `n` numbers after a counter's value, in order (R181). -/
def numbersAfter (seq : BitVec 32) (n : Nat) : List Nat :=
  (List.range n).map fun i => (seq.toNat + i + 1) % 2 ^ 32

/-- Between two states the reports emitted carry the numbers after the first state's counter, and the counter advanced by as many. -/
def NumbersReports (s t : State) : Prop :=
  ∃ es : List Emission, t.emitted = s.emitted ++ es ∧
    es.filterMap Emission.stamp = numbersAfter s.seq (es.filter Emission.isTx).length ∧
    t.seq.toNat = (s.seq.toNat + (es.filter Emission.isTx).length) % 2 ^ 32

/-- Counting on from where the first `m` numbers end. -/
theorem numbersAfter_add {a b : BitVec 32} {m : Nat} (n : Nat) (h : b.toNat = (a.toNat + m) % 2 ^ 32) :
    numbersAfter a (m + n) = numbersAfter a m ++ numbersAfter b n := by
  simp only [numbersAfter, List.range_add, List.map_append, List.map_map, h]
  congr 1
  refine List.map_congr_left fun i _ => ?_
  simp only [Function.comp_apply]
  omega

theorem NumbersReports.trans {s u t : State} (hsu : NumbersReports s u) (hut : NumbersReports u t) : NumbersReports s t := by
  obtain ⟨es, hes, hstamps, hseq⟩ := hsu
  obtain ⟨fs, hfs, hstamps', hseq'⟩ := hut
  refine ⟨es ++ fs, by rw [hfs, hes, List.append_assoc], ?_, ?_⟩
  · rw [List.filterMap_append, List.filter_append, List.length_append, hstamps, hstamps', numbersAfter_add _ hseq]
  · rw [List.filter_append, List.length_append, hseq', hseq]
    omega

/-- Where the counter stands still and at most error kinds are logged, there is no report to number. -/
theorem numbersReports_of_no_report {s t : State} (hseq : t.seq = s.seq)
    (hemitted : t.emitted = s.emitted ∨ ∃ k, t.emitted = s.emitted ++ [.log k]) : NumbersReports s t := by
  have hmod : s.seq.toNat = s.seq.toNat % 2 ^ 32 := (Nat.mod_eq_of_lt s.seq.isLt).symm
  rcases hemitted with h | ⟨k, h⟩
  · exact ⟨[], by rw [h, List.append_nil], rfl, hseq ▸ hmod⟩
  · exact ⟨[.log k], h, rfl, hseq ▸ hmod⟩

theorem numbersReports_afterReport (s : State) (d : CapturedRecord) (r : RecIn) : NumbersReports s (s.afterReport d r) := by
  obtain ⟨es, hes, hone, hstamp⟩ := afterReport_emits_one_stamped s d r
  have hseq : (s.afterReport d r).seq.toNat = (s.seq.toNat + 1) % 2 ^ 32 := by
    rw [afterReport_seq, BitVec.toNat_add]
    rfl
  refine ⟨es, hes, ?_, by rw [hone, hseq]⟩
  rw [hone, hstamp, hseq]
  rfl

theorem IterationResult.numbersReports {i : Instr} {s t : State} (h : IterationResult i s t) : NumbersReports s t := by
  cases h with
  | unchanged | stop | skip => exact numbersReports_of_no_report rfl (.inl rfl)
  | rejected k => exact numbersReports_of_no_report rfl (.inr ⟨k, rfl⟩)
  | reported d r => exact numbersReports_afterReport s d r

/-- Only a direct SEQ_NEXT takes a number without a report, and only RESET starts over (R183, R230). -/
theorem exec_numbersReports {i : Instr} {s t : State} (hreset : i ≠ .reset) (hseq : i ≠ .seqNext) (he : exec i s = .next t) :
    NumbersReports s t := by
  cases exec_cases he with
  | iteration _ h => exact h.numbersReports
  | unchanged | stacked | decoded | returned | built => exact numbersReports_of_no_report rfl (.inl rfl)
  | rejected k => exact numbersReports_of_no_report rfl (.inr ⟨k, rfl⟩)
  | reset hi => exact absurd hi hreset
  | counted hi => exact absurd hi hseq

/-- Without a reset the ports select an outcome of the iteration (R188, R209). -/
theorem decodeCondition_without_reset (c : Cfg) {p : Ports} (h : p.reset = false) :
    decodeCondition (conditionWord c p) ≠ .reset ∧ decodeCondition (conditionWord c p) ≠ .seqNext := by
  rw [conditionWord, decodeCondition_ofBool, h, if_neg Bool.false_ne_true]
  split_ifs <;> exact ⟨nofun, nofun⟩

/-- A step that shows a setting of the ports without a reset takes it off `pending` and numbers what it reports. -/
theorem step_numbersReports {s t : State} {p : Ports} {rest : List Input} (hp : s.pending = .ports p :: rest)
    (hr : p.reset = false) (h : step s = .next t) : t.pending = rest ∧ NumbersReports s t := by
  by_cases hpresent : p.present = true
  · have hf : fetch s = .run (decodeCondition (conditionWord s.cfg p)) { s with ports := p, pending := rest } := by
      simp only [fetch, hp, fetchInput, if_pos hpresent, fetchBytes, decode_conditionByte]
    rw [step_of_fetch_run hf] at h
    obtain ⟨hreset, hseq⟩ := decodeCondition_without_reset s.cfg hr
    obtain ⟨-, -, hpending⟩ := noOperationWritesTheConfiguration _ _ t h
    have hnumbers := exec_numbersReports hreset hseq h
    exact ⟨hpending, hnumbers⟩
  · have hf : fetch s = .quiet { s with ports := p, pending := rest } := by
      simp only [fetch, hp, fetchInput, if_neg hpresent]
    rw [step_of_fetch_quiet hf] at h
    cases h
    exact ⟨rfl, numbersReports_of_no_report rfl (.inl rfl)⟩

/-- The numbering of a run, by induction over the presentations. -/
theorem run_numbersReports (ps : List Ports) {s t : State} (hp : s.pending = ps.map .ports) (hr : ∀ p ∈ ps, p.reset = false)
    (h : Host.Core.run core ps.length s = .next t) : NumbersReports s t := by
  induction ps generalizing s with
  | nil =>
    cases h
    exact numbersReports_of_no_report rfl (.inl rfl)
  | cons p ps ih =>
    obtain ⟨hhead, htail⟩ := List.forall_mem_cons.1 hr
    obtain ⟨u, hstep, hrun⟩ := run_succ_cases h
    obtain ⟨hpending, hnumbers⟩ := step_numbersReports hp hhead hstep
    exact hnumbers.trans (ih hpending htail hrun)

/-- Settles O47: every step of the run numbers its reports after the counter it finds. -/
theorem reportsAreNumberedConsecutively : Obligations.ReportsAreNumberedConsecutively := by
  intro s t ps _ hp hps h
  exact run_numbersReports ps hp (fun p hmem => (hps p hmem).1) h

end Sys2Proof.Machine
end

section
/-! PROOF. The captured record (O5, O9): the record that R51 to R54 read from bytes, on a byte image field by field, and on two
buffers that agree outside the reserved bytes. -/

namespace Sys2Proof.Machine

/-! ### Reading past the bytes before a field -/

theorem octetAt_skip {pre raw : List Byte} {a : Nat} (h : pre.length ≤ a) :
    octetAt (pre ++ raw) a = octetAt raw (a - pre.length) := by
  simp only [octetAt, List.getD_eq_getElem?_getD, List.getElem?_append_right h]

theorem number16_skip {e : Endian} {pre raw : List Byte} {a : Nat} (h : pre.length ≤ a) :
    number16 e (pre ++ raw) a = number16 e raw (a - pre.length) := by
  have hnext : a + 1 - pre.length = a - pre.length + 1 := by omega
  simp only [number16, octetAt_skip h, octetAt_skip (Nat.le_succ_of_le h), hnext]

theorem number32_skip {e : Endian} {pre raw : List Byte} {a : Nat} (h : pre.length ≤ a) :
    number32 e (pre ++ raw) a = number32 e raw (a - pre.length) := by
  have hoff (i : Nat) : octetAt (pre ++ raw) (a + i) = octetAt raw (a - pre.length + i) := by
    rw [octetAt_skip (by omega), Nat.sub_add_comm h]
  simp only [number32, octetAt_skip h, hoff]

theorem hopAt_skip {e : Endian} {pre raw : List Byte} {a : Nat} (h : pre.length ≤ a) :
    hopAt e (pre ++ raw) a = hopAt e raw (a - pre.length) := by
  have hoff (i : Nat) : number32 e (pre ++ raw) (a + i) = number32 e raw (a - pre.length + i) := by
    rw [number32_skip (by omega), Nat.sub_add_comm h]
  have hoff' (i : Nat) : number16 e (pre ++ raw) (a + i) = number16 e raw (a - pre.length + i) := by
    rw [number16_skip (by omega), Nat.sub_add_comm h]
  simp only [hopAt, number32_skip h, hoff, hoff']

/-! ### Reading the field that comes first -/

theorem octetAt_head (b : Byte) (post : List Byte) : octetAt ([b] ++ post) 0 = b :=
  octetAt_append [] post b 0 rfl

theorem number16_head (e : Endian) (v : BitVec 16) (post : List Byte) : number16 e (natBytes e 2 v.toNat ++ post) 0 = v :=
  number16_natBytes e [] post v 0 rfl

theorem number32_head (e : Endian) (v : BitVec 32) (post : List Byte) : number32 e (natBytes e 4 v.toNat ++ post) 0 = v :=
  number32_natBytes e [] post v 0 rfl

/-- The halves of a packed pair word (R53). -/
theorem pairWord_fields (i : BitVec 8) (v : BitVec 24) :
    (i ++ v : BitVec 32).extractLsb' 24 8 = i ∧ (i ++ v : BitVec 32).extractLsb' 0 24 = v :=
  ⟨BitVec.extractLsb'_append_eq_left, BitVec.extractLsb'_append_eq_right⟩

/-- A hop block read back from its byte image (R54). -/
theorem hopAt_head (e : Endian) (h : HopFields) (post : List Byte) : hopAt e (hopImage e h ++ post) 0 = h := by
  obtain ⟨hq, hqv⟩ := pairWord_fields h.qId h.qOcc
  obtain ⟨hc, hcv⟩ := pairWord_fields h.qcId h.qcVal
  simp only [hopAt, hopImage, List.append_assoc, Nat.zero_add, number32_skip, number16_skip, natBytes_length,
    number32_head, number16_head, Nat.reduceLeDiff, Nat.reduceSub, hq, hqv, hc, hcv]

/-- The flags and the count read back from the flags byte (R52). -/
theorem flagsImage_fields (r : CapturedRecord) :
    (flagsImage r).getLsbD 2 = r.intValid ∧ (flagsImage r).getLsbD 1 = r.hop0Valid ∧ (flagsImage r).getLsbD 0 = r.hop1Valid ∧
      (flagsImage r).extractLsb' 3 5 = r.insCnt :=
  flags_fields r.insCnt r.intValid r.hop0Valid r.hop1Valid

theorem hopImage_length (e : Endian) (h : HopFields) : (hopImage e h).length = 32 := by
  simp [hopImage]

/-- The record read back from its byte image (R51, R52). -/
theorem recordAt_recordImage (e : Endian) (r : CapturedRecord) : recordAt e (recordImage e r) = r := by
  obtain ⟨hvalid, h0, h1, hcnt⟩ := flagsImage_fields r
  have hbytes (b0 b1 b2 b3 : Byte) (post : List Byte) :
      [b0, b1, b2, b3] ++ post = [b0] ++ ([b1] ++ ([b2] ++ ([b3] ++ post))) := rfl
  simp only [recordAt, recordImage, List.append_assoc, hbytes, octetAt_skip, number16_skip, number32_skip, hopAt_skip,
    natBytes_length, hopImage_length, List.length_cons, List.length_nil, Nat.reduceLeDiff, Nat.reduceSub, Nat.reduceAdd,
    octetAt_head, number16_head, number32_head, hopAt_head, hvalid, h0, h1, hcnt]

/-- DECODE of 128 bytes under the default layout (R100 to R122): the record of R51 to R54, and the bytes in REC. -/
theorem exec_decode_default {s : State} {raw : List Byte} (h : s.runState = .idle) (hl : s.cfg.layout = {})
    (hraw : raw.length = 128) :
    exec (.decode 128 raw) s = .next { s with record := recordAt s.cfg.recEndian raw, recBuf := loadRec raw } := by
  have hop : decodeOp s.cfg 128 raw = .done (recordAt s.cfg.recEndian raw) := by
    rw [decodeOp_wellFormed s.cfg 128 raw hraw, if_neg (by decide), decodeFields_default s.cfg raw hl hraw]
  simp only [exec, execDecode, whenIdle_of_idle h, hop]

/-- Settles O5: the byte image has 128 bytes, DECODE of them is the record of R51 to R54, and that is the record they carry. -/
theorem capturedRecordRoundTrips : Obligations.CapturedRecordRoundTrips := by
  intro s r hidle hl
  have hlen := recordImage_length s.cfg.recEndian r
  refine ⟨hlen, loadRec (recordImage s.cfg.recEndian r), ?_, fun a => loadRec_read _ a hlen⟩
  rw [exec_decode_default hidle hl hlen, recordAt_recordImage]

/-! ### The reserved bytes (R55) -/

theorem number16_congr (e : Endian) {raw raw' : List Byte} {a : Nat}
    (h : ∀ i < 2, octetAt raw (a + i) = octetAt raw' (a + i)) :
    number16 e raw a = number16 e raw' a := by
  have h0 := h 0 (by decide)
  have h1 := h 1 (by decide)
  rw [Nat.add_zero] at h0
  simp only [number16, h0, h1]

theorem number32_congr (e : Endian) {raw raw' : List Byte} {a : Nat}
    (h : ∀ i < 4, octetAt raw (a + i) = octetAt raw' (a + i)) :
    number32 e raw a = number32 e raw' a := by
  have h0 := h 0 (by decide)
  rw [Nat.add_zero] at h0
  simp only [number32, h0, h 1 (by decide), h 2 (by decide), h 3 (by decide)]

/-- A hop block reads its own 32 bytes. -/
theorem hopAt_congr (e : Endian) {raw raw' : List Byte} {a : Nat}
    (h : ∀ i < 32, octetAt raw (a + i) = octetAt raw' (a + i)) :
    hopAt e raw a = hopAt e raw' a := by
  have h32 (d : Nat) (hd : d + 4 ≤ 32) : number32 e raw (a + d) = number32 e raw' (a + d) :=
    number32_congr e fun i hi => by simpa only [Nat.add_assoc] using h (d + i) (by omega)
  have h16 (d : Nat) (hd : d + 2 ≤ 32) : number16 e raw (a + d) = number16 e raw' (a + d) :=
    number16_congr e fun i hi => by simpa only [Nat.add_assoc] using h (d + i) (by omega)
  have h0 : number32 e raw a = number32 e raw' a := h32 0 (by decide)
  simp only [hopAt, h0, h32, h16, Nat.reduceAdd, Nat.reduceLeDiff]

/-- The record reads neither `REC:18..19` nor anything from `REC:84` on (R55). -/
theorem recordAt_congr (e : Endian) {raw raw' : List Byte}
    (h : ∀ a, a < 18 ∨ (20 ≤ a ∧ a < 84) → octetAt raw a = octetAt raw' a) :
    recordAt e raw = recordAt e raw' := by
  have h32 (a : Nat) (ha : a + 4 ≤ 18) : number32 e raw a = number32 e raw' a := number32_congr e fun i hi => h _ (by omega)
  have h16 (a : Nat) (ha : a + 2 ≤ 18) : number16 e raw a = number16 e raw' a := number16_congr e fun i hi => h _ (by omega)
  have h8 (a : Nat) (ha : a < 18) : octetAt raw a = octetAt raw' a := h a (.inl ha)
  have hhop (a : Nat) (ha : 20 ≤ a) (ha' : a + 32 ≤ 84) : hopAt e raw a = hopAt e raw' a :=
    hopAt_congr e fun i hi => h _ (by omega)
  simp only [recordAt, h32, h16, h8, hhop, Nat.reduceAdd, Nat.reduceLeDiff, Nat.reduceLT, le_refl]

/-- Settles O9: DECODE leaves the record of R51 to R54, which reads no reserved byte. -/
theorem decodeIgnoresReservedBytes : Obligations.DecodeIgnoresReservedBytes := by
  intro s raw raw' hidle hl hraw hraw' hagree
  have hoct (a : Nat) (ha : a < 18 ∨ (20 ≤ a ∧ a < 84)) : octetAt raw a = octetAt raw' a := by
    simp only [octetAt, List.getD_eq_getElem?_getD, hagree a ha]
  refine ⟨recordAt s.cfg.recEndian raw, loadRec raw, loadRec raw', exec_decode_default hidle hl hraw, ?_⟩
  rw [exec_decode_default hidle hl hraw', recordAt_congr _ hoct]

end Sys2Proof.Machine
end

section
/-! PROOF. The decoder and what selects an operation (O1, O2, O3, O4, O6, O51): the rows of the opcode table that words decode
to, and the fetch that reads a word. -/

namespace Sys2Proof.Machine

/-! ### The words of an operation (R56, R76, R209) -/

/-- Settles O1: the decoder evaluated on each word. -/
theorem selectingWordsDecodeToTheirRows : Obligations.SelectingWordsDecodeToTheirRows := by
  unfold Obligations.SelectingWordsDecodeToTheirRows
  decide

theorem decode_natBytes_of_some {k : HopIndex} {w : BitVec 16} {i : Instr} (e : Endian) (h : decodeBitmap k w = some i) :
    decode e k (natBytes e 2 w.toNat) = .ok i := by
  rw [decode_natBytes, h]

theorem decode_natBytes_of_none {k : HopIndex} {w : BitVec 16} (e : Endian) (h : decodeBitmap k w = none) :
    decode e k (natBytes e 2 w.toNat) = .error .noMetricClass := by
  rw [decode_natBytes, h]

/-- The words the encoder writes: a condition byte, or the bitmap of the operation's own bit. -/
theorem encode_cases {e : Endian} {i : Instr} {bytes : List Byte} (h : encode e i = some bytes) :
    (∃ c : Byte, bytes = [c] ∧ decodeCondition (c.setWidth 5) = i) ∨
      ∃ w : BitVec 16, bytes = natBytes e 2 w.toNat ∧ decodeBitmap i.hopIndex w = some i := by
  cases i with
  | insSwid k => cases h; exact .inr ⟨0x8000, rfl, rfl⟩
  | insPorts k => cases h; exact .inr ⟨0x4000, rfl, rfl⟩
  | insHoplat k => cases h; exact .inr ⟨0x2000, rfl, rfl⟩
  | insQocc k => cases h; exact .inr ⟨0x1000, rfl, rfl⟩
  | insIngts k => cases h; exact .inr ⟨0x0800, rfl, rfl⟩
  | insEgts k => cases h; exact .inr ⟨0x0400, rfl, rfl⟩
  | insQcong k => cases h; exact .inr ⟨0x0200, rfl, rfl⟩
  | insTxutil k => cases h; exact .inr ⟨0x0100, rfl, rfl⟩
  | reset | processStop | processSkipMalformed | processSkipNoint | processReject | processReport =>
    cases h
    exact .inl ⟨_, rfl, rfl⟩
  | process | decode | encodeHop | encodeHops | seqNext | build | csum => cases h

/-- Settles O3: a condition byte decodes by its low five bits, a bitmap in its own byte order to its highest bit's row. -/
theorem encodedWordsDecodeBack : Obligations.EncodedWordsDecodeBack := by
  intro e i bytes h
  rcases encode_cases h with ⟨c, rfl, hc⟩ | ⟨w, rfl, hw⟩
  · exact congrArg Except.ok hc
  · exact decode_natBytes_of_some e hw

/-- The two forms of bytes that the decoder accepts. -/
theorem decode_ok_cases {e : Endian} {k : HopIndex} {bytes : List Byte} {i : Instr} (h : decode e k bytes = .ok i) :
    (∃ b, bytes = [b] ∧ decodeCondition (b.setWidth 5) = i) ∨
      ∃ b0 b1, bytes = [b0, b1] ∧ decodeBitmap k (BitVec.ofNat 16 (bytesNat e [b0, b1])) = some i := by
  match bytes with
  | [] => cases h
  | [b] => exact .inl ⟨b, rfl, by cases h; rfl⟩
  | [b0, b1] =>
    refine .inr ⟨b0, b1, rfl, ?_⟩
    rw [decode_bitmap] at h
    cases hd : decodeBitmap k (BitVec.ofNat 16 (bytesNat e [b0, b1])) with
    | none => rw [hd] at h; cases h
    | some j => rw [hd] at h; cases h; rfl
  | _ :: _ :: _ :: _ => cases h

/-- A condition word has the match of its row under its mask, which lies in the word's five bits (R209). -/
theorem decodeCondition_pattern (c : BitVec 5) :
    ∃ value mask, (decodeCondition c).pattern = some (value, mask) ∧ mask < 2 ^ 5 ∧ c.toNat &&& mask = value := by
  have hrow : ∀ c : BitVec 5, ((decodeCondition c).pattern.any fun p => p.2 < 2 ^ 5 && c.toNat &&& p.2 == p.1) = true := by
    decide
  obtain ⟨⟨value, mask⟩, hp, hm⟩ := (Option.any_eq_true _ _).1 (hrow c)
  simp only [Bool.and_eq_true, decide_eq_true_eq, beq_iff_eq] at hm
  exact ⟨value, mask, hp, hm⟩

/-- The bits above a condition word lie outside every mask (log 14). -/
theorem and_eq_setWidth_and (b : Byte) {mask : Nat} (h : mask < 2 ^ 5) :
    b.toNat &&& mask = (b.setWidth 5).toNat &&& mask := by
  rw [BitVec.toNat_setWidth, ← Nat.mod_eq_of_lt (Nat.and_lt_two_pow b.toNat h), Nat.and_mod_two_pow, Nat.mod_eq_of_lt h]

/-- Settles O2: one byte by the rows of the condition word, two bytes by the highest set bit of the bitmap. -/
theorem decodedWordMatchesItsTableRow : Obligations.DecodedWordMatchesItsTableRow := by
  intro e k bytes i h
  rcases decode_ok_cases h with ⟨b, rfl, rfl⟩ | ⟨b0, b1, rfl, hw⟩
  · obtain ⟨value, mask, hp, hmask, hvalue⟩ := decodeCondition_pattern (b.setWidth 5)
    exact ⟨value, mask, hp, .inl ⟨b, rfl, (and_eq_setWidth_and b hmask).trans hvalue⟩⟩
  · rcases decodeBitmap_cases k (BitVec.ofNat 16 (bytesNat e [b0, b1])) with
      ⟨-, hn⟩ | ⟨j, n, -, -, hj, hp, hk, hlow, hhigh⟩
    · rw [hn] at hw; cases hw
    · obtain rfl : j = i := Option.some.inj (hj.symm.trans hw)
      rw [toNat_bytesNat_two] at hlow hhigh
      have hbit : (bytesNat e [b0, b1]).testBit n = true := Nat.testBit_of_two_pow_le_and_two_pow_add_one_gt hlow hhigh
      refine ⟨2 ^ n, 2 ^ n, hp, .inr ⟨rfl, hk, ?_, hlow, by omega⟩⟩
      rw [Nat.and_two_pow, hbit, Bool.toNat_true, Nat.one_mul]

/-- R57: the bitmaps that select nothing. -/
theorem decodeBitmap_eq_none_iff {k : HopIndex} {w : BitVec 16} : decodeBitmap k w = none ↔ w.toNat < 256 := by
  rcases decodeBitmap_cases k w with ⟨hlt, hn⟩ | ⟨i, b, hb, -, hi, -, -, hlow, -⟩
  · exact iff_of_true hn hlt
  · have h256 : 2 ^ 8 ≤ 2 ^ b := Nat.pow_le_pow_right (by decide) hb
    exact iff_of_false (by simp [hi]) (by omega)

/-- Settles O4: two bytes are refused exactly where the bitmap they hold selects nothing. -/
theorem lowBitmapBitsSelectNothing : Obligations.LowBitmapBitsSelectNothing := by
  intro e k b0 b1
  rw [← toNat_bytesNat_two e b0 b1, ← decodeBitmap_eq_none_iff (k := k), decode_bitmap]
  cases decodeBitmap k (BitVec.ofNat 16 (bytesNat e [b0, b1])) <;> simp

/-! ### The fetch (R76, R139) -/

theorem fetchBytes_of_ok {s : State} {k : HopIndex} {bytes : List Byte} {i : Instr}
    (h : decode s.cfg.recEndian k bytes = .ok i) : fetchBytes s k bytes = .run i s := by
  simp only [fetchBytes, h]

theorem fetchBytes_of_error {s : State} {k : HopIndex} {bytes : List Byte} {r : DecodeError}
    (h : decode s.cfg.recEndian k bytes = .error r) : fetchBytes s k bytes = .quiet s := by
  simp only [fetchBytes, h]

/-- Ports that show something are decoded by their condition byte. -/
theorem fetch_ports {s : State} {p : Ports} {rest : List Input} {i : Instr} (hp : s.pending = .ports p :: rest)
    (hpresent : p.present = true) (hd : decode s.cfg.recEndian .hop1 [conditionByte s.cfg p] = .ok i) :
    fetch s = .run i { s with ports := p, pending := rest } := by
  simp only [fetch, hp, fetchInput, if_pos hpresent]
  exact fetchBytes_of_ok hd

/-- A bitmap is decoded from its bytes, and the rest of it stays pending. -/
theorem fetch_bitmap {s : State} {k : HopIndex} {w : BitVec 16} {rest : List Input} {i : Instr}
    (hp : s.pending = .bitmap k w :: rest) (hd : decode s.cfg.recEndian k (natBytes s.cfg.recEndian 2 w.toNat) = .ok i) :
    fetch s = .run i { s with pending := restOfBitmap k w rest } := by
  simp only [fetch, hp, fetchInput]
  exact fetchBytes_of_ok hd

/-- A bitmap that selects nothing has no bit of 15:8, and nothing to clear. -/
theorem clearFirst_of_decodeBitmap_none {k : HopIndex} {w : BitVec 16} (h : decodeBitmap k w = none) :
    clearFirst w = w ∧ selectedClasses w = 0 := by
  unfold decodeBitmap at h
  split_ifs at h with h15 h14 h13 h12 h11 h10 h9 h8
  simp only [Bool.not_eq_true] at h15 h14 h13 h12 h11 h10 h9 h8
  constructor
  · simp only [clearFirst, h15, h14, h13, h12, h11, h10, h9, h8, Bool.false_eq_true, if_false]
  · simp only [selectedClasses_eq, h15, h14, h13, h12, h11, h10, h9, h8, Bool.toNat_false]

/-- A bitmap that selects nothing is taken off the pending inputs. -/
theorem fetch_bitmap_none {s : State} {k : HopIndex} {w : BitVec 16} {rest : List Input}
    (hp : s.pending = .bitmap k w :: rest) (hd : decodeBitmap k w = none) : fetch s = .quiet { s with pending := rest } := by
  obtain ⟨hclear, hcount⟩ := clearFirst_of_decodeBitmap_none hd
  have hrest : restOfBitmap k w rest = rest := by rw [restOfBitmap, hclear, if_pos hcount]
  simp only [fetch, hp, fetchInput, hrest]
  exact fetchBytes_of_error (decode_natBytes_of_none _ hd)

/-- An invocation is fetched as it is, or as RESET where reset is asserted beside it (R208). -/
theorem fetch_invoke {s : State} {p : Ports} {rest : List Input} {i : Instr} (hp : s.pending = .invoke p i :: rest) :
    fetch s = .run (if p.reset then .reset else i) { s with ports := p, pending := rest } := by
  simp only [fetch, hp, fetchInput]

/-- Settles O51: one clause for each kind of pending input, by its fetch. -/
theorem stepRunsTheDecodedOperation : Obligations.StepRunsTheDecodedOperation := by
  refine ⟨fun s p rest i hp hpresent hd => ?_, fun s k w rest i hp hd => ?_, fun s k w rest hp hw => ?_,
    fun s p rest i hp hr => ?_, fun s p rest i hp hr => ?_⟩
  · exact step_of_fetch_run (fetch_ports hp hpresent hd)
  · exact step_of_fetch_run (fetch_bitmap hp hd)
  · exact step_of_fetch_quiet (fetch_bitmap_none hp (decodeBitmap_eq_none_iff.2 hw))
  · rw [step_of_fetch_run (fetch_invoke hp), hr, if_neg Bool.false_ne_true]
  · rw [step_of_fetch_run (fetch_invoke hp), hr, if_pos rfl]

/-! ### A placed table word (log 13, log 16) -/

theorem conditionRecord_length (cfg : Cfg) (valid consistent : Bool) : (conditionRecord cfg valid consistent).length = recLen := by
  simp only [conditionRecord, List.length_set, List.length_replicate]

/-- The record made for a condition is valid and consistent as asked: no hop is valid, so it is consistent where its length is 4. -/
theorem decodeFields_conditionRecord {cfg : Cfg} (hl : cfg.layout = {}) (valid consistent : Bool) :
    (decodeFields cfg (conditionRecord cfg valid consistent)).intValid = valid ∧
      (decodeFields cfg (conditionRecord cfg valid consistent)).consistent = consistent := by
  rw [decodeFields_default cfg _ hl (conditionRecord_length cfg valid consistent)]
  have hflags : octetAt (conditionRecord cfg valid consistent) 14 = if valid then 4 else 0 := by
    simp [octetAt, conditionRecord, hl, recLen]
  have hlength : octetAt (conditionRecord cfg valid consistent) 15 = if consistent then 4 else 0 := by
    simp [octetAt, conditionRecord, hl, recLen]
  constructor
  · simp only [recordAt, hflags]
    cases valid <;> rfl
  · have hbytes : (recordAt cfg.recEndian (conditionRecord cfg valid consistent)).stackBytes = 0 := by
      have hhops : (recordAt cfg.recEndian (conditionRecord cfg valid consistent)).nhops = 0 := by
        simp only [CapturedRecord.nhops, recordAt, hflags]
        cases valid <;> rfl
      rw [CapturedRecord.stackBytes, hhops, Nat.zero_mul]
    rw [CapturedRecord.consistent, hbytes]
    simp only [CapturedRecord.declares, CapturedRecord.words, recordAt, hlength]
    cases consistent <;> rfl

/-- Under the default layout the ports made for a condition word select what the word selects (log 16). -/
theorem decodeCondition_portsFor {cfg : Cfg} (hl : cfg.layout = {}) (c : BitVec 5) :
    decodeCondition (conditionWord cfg (portsFor cfg c)) = decodeCondition c := by
  obtain ⟨hvalid, hconsistent⟩ := decodeFields_conditionRecord hl (c.getLsbD 1) (c.getLsbD 0)
  have hdecode := decodeRec_loadRec cfg _ (conditionRecord_length cfg (c.getLsbD 1) (c.getLsbD 0))
  rw [conditionWord, decodeCondition_ofBool, decodeCondition]
  cases hlen : c.getLsbD 2 with
  | true =>
    simp only [portsFor, hlen, if_true, Ports.has128, presentedRecord, hdecode, Option.elim, hvalid, hconsistent, beq_self_eq_true]
  | false =>
    simp only [portsFor, hlen, Ports.has128, Bool.false_eq_true, if_false, show ((0 : Nat) == recLen) = false from rfl]
    rfl

theorem portsFor_present (cfg : Cfg) (c : BitVec 5) : (portsFor cfg c).present = true := by
  simp [Ports.present, portsFor]

/-- A table word of at most 8 bits is read as a condition word. -/
theorem decodeTableWord_condition {nbits w : Nat} (h0 : nbits ≠ 0) (h8 : nbits ≤ 8) :
    decodeTableWord nbits w = some (decodeCondition (BitVec.ofNat 5 w)) := by
  have hlow : (BitVec.ofNat 8 w).setWidth 5 = BitVec.ofNat 5 w := by
    apply BitVec.eq_of_toNat_eq
    simp only [BitVec.toNat_setWidth, BitVec.toNat_ofNat]
    omega
  simp only [decodeTableWord, if_neg h0, if_pos h8, leBytes, decode, hlow]

/-- A table word of 9 to 16 bits is read as a bitmap. -/
theorem decodeTableWord_bitmap {nbits w : Nat} (h8 : ¬nbits ≤ 8) (h16 : nbits ≤ 16) :
    decodeTableWord nbits w = decodeBitmap .hop1 (BitVec.ofNat 16 w) := by
  have hbytes : leBytes 2 w = natBytes .little 2 (BitVec.ofNat 16 w).toNat := by
    simp only [natBytes, leBytes, BitVec.toNat_ofNat, List.cons.injEq, and_true]
    constructor <;> apply BitVec.eq_of_toNat_eq <;> simp only [BitVec.toNat_ofNat] <;> omega
  simp only [decodeTableWord, if_neg (show nbits ≠ 0 by omega), if_neg h8, if_pos h16, hbytes]
  cases hd : decodeBitmap .hop1 (BitVec.ofNat 16 w) with
  | none => rw [decode_natBytes_of_none _ hd]
  | some i => rw [decode_natBytes_of_some _ hd]

/-- A table word has at least one bit and at most 16. -/
theorem decodeTableWord_other {nbits w : Nat} (h : nbits = 0 ∨ 16 < nbits) : decodeTableWord nbits w = none := by
  rcases h with rfl | h
  · rfl
  · have h0 : nbits ≠ 0 := by omega
    have h8 : ¬nbits ≤ 8 := by omega
    simp only [decodeTableWord, if_neg h0, if_neg h8, if_neg (Nat.not_le.2 h), decode]

/-- A word is placed as the first pending input. -/
theorem withFetchWord_of_input {s : State} {nbits w : Nat} {x : Input} (h : inputForWord s.cfg nbits w = some x) :
    s.withFetchWord nbits w = { s with pending := x :: s.pending } := by
  simp only [State.withFetchWord, h]

/-- Settles O6: the word is placed as ports made for the condition, or as the bitmap it is. -/
theorem placedWordIsFetched : Obligations.PlacedWordIsFetched := by
  intro nbits w i h
  by_cases hother : nbits = 0 ∨ 16 < nbits
  · rw [decodeTableWord_other hother] at h
    cases h
  obtain ⟨h0, h16⟩ : nbits ≠ 0 ∧ nbits ≤ 16 := by omega
  by_cases h8 : nbits ≤ 8
  · rw [decodeTableWord_condition h0 h8] at h
    cases h
    have hx : inputForWord State.reset.cfg nbits w = some (.ports (portsFor State.reset.cfg (BitVec.ofNat 5 w))) := by
      simp only [inputForWord, if_neg h0, if_pos h8]
    have hd := (decode_conditionByte .little .hop1 State.reset.cfg (portsFor State.reset.cfg (BitVec.ofNat 5 w))).trans
      (congrArg Except.ok (decodeCondition_portsFor rfl (BitVec.ofNat 5 w)))
    rw [withFetchWord_of_input hx]
    exact ⟨_, fetch_ports rfl (portsFor_present _ _) hd⟩
  · rw [decodeTableWord_bitmap h8 h16] at h
    have hx : inputForWord State.reset.cfg nbits w = some (.bitmap .hop1 (BitVec.ofNat 16 w)) := by
      simp only [inputForWord, if_neg h0, if_neg h8, if_pos h16]
    rw [withFetchWord_of_input hx]
    exact ⟨_, fetch_bitmap rfl (decode_natBytes_of_some _ h)⟩

end Sys2Proof.Machine
end

section
/-! PROOF. The serializer (O15, O18): ENCODE_HOPS on a consistent record, and a bitmap run one instruction a step. -/

namespace Sys2Proof.Machine

/-- Settles O15: ENCODE_HOPS serializes the stack of R69, and the length it checked is the declared one. -/
theorem encodeHopsSerializesHop1First : Obligations.EncodeHopsSerializesHop1First := by
  intro s hidle hc
  refine ⟨?_, wireStack_length_of_consistent s.record hc⟩
  simp only [exec, execEncodeHops, whenIdle_of_idle hidle, encodeHopsOp_consistent s.record hc]

/-! ### One instruction of a bitmap -/

/-- A bitmap without a class set serializes nothing. -/
theorem hopItems_of_no_class (h : HopFields) {w : BitVec 16} (hw : selectedClasses w = 0) : hopItems h w = [] := by
  apply List.eq_nil_of_length_eq_zero
  rw [hopItems_eq_wireGroup, wireGroup_length, hw]

/-- The first instruction of a bitmap appends the first item of the hop's group; clearing its bit leaves the others (R139). -/
theorem firstInstruction_appends_item {k : HopIndex} {w : BitVec 16} {i : Instr} (h : decodeBitmap k w = some i) :
    ∃ item : HopFields → List Byte,
      (∀ s : State, s.runState = .idle → exec i s = .next { s with stack := s.stack ++ item (s.record.hop k) }) ∧
      (∀ hf : HopFields, hopItems hf w = item hf ++ hopItems hf (clearFirst w)) ∧
      selectedClasses w = selectedClasses (clearFirst w) + 1 := by
  simp only [decodeBitmap, BitVec.getLsbD_eq_getElem, Nat.reduceLT] at h
  split_ifs at h <;> cases h
  on_goal 1 => refine ⟨itemSwid, ?_⟩
  on_goal 2 => refine ⟨itemPorts, ?_⟩
  on_goal 3 => refine ⟨itemHoplat, ?_⟩
  on_goal 4 => refine ⟨itemQocc, ?_⟩
  on_goal 5 => refine ⟨itemIngts, ?_⟩
  on_goal 6 => refine ⟨itemEgts, ?_⟩
  on_goal 7 => refine ⟨itemQcong, ?_⟩
  on_goal 8 => refine ⟨itemTxutil, ?_⟩
  all_goals
    refine ⟨fun s hs => whenIdle_of_idle hs _, fun hf => ?_, ?_⟩
    · simp [hopItems, clearFirst, *]
    · simp [selectedClasses_eq, clearFirst, *]

/-! ### A bitmap run to its end -/

/-- The bitmap's first instruction, as a step: its item on the stack, the rest of the bitmap still to come. -/
theorem step_bitmap {s : State} {k : HopIndex} {w : BitVec 16} {rest : List Input} (hidle : s.runState = .idle)
    (hp : s.pending = .bitmap k w :: rest) (hw : selectedClasses w ≠ 0) :
    ∃ item : List Byte, step s = .next { s with pending := restOfBitmap k w rest, stack := s.stack ++ item } ∧
      hopItems (s.record.hop k) w = item ++ hopItems (s.record.hop k) (clearFirst w) ∧
      selectedClasses w = selectedClasses (clearFirst w) + 1 := by
  cases hd : decodeBitmap k w with
  | none => exact absurd (clearFirst_of_decodeBitmap_none hd).2 hw
  | some i =>
    obtain ⟨item, hexec, hitems, hcount⟩ := firstInstruction_appends_item hd
    have hfetch := fetch_bitmap hp (decode_natBytes_of_some _ hd)
    exact ⟨item (s.record.hop k), (step_of_fetch_run hfetch).trans (hexec _ hidle), hitems _, hcount⟩

/-- As many steps as classes are selected, by induction on the classes still to come. -/
theorem run_bitmap (n : Nat) {s : State} {k : HopIndex} {w : BitVec 16} {rest : List Input} (hidle : s.runState = .idle)
    (hp : s.pending = .bitmap k w :: rest) (hn : selectedClasses w = n + 1) :
    Host.Core.run core (n + 1) s
      = .next { s with pending := rest, stack := s.stack ++ hopItems (s.record.hop k) w } := by
  induction n generalizing s w with
  | zero =>
    obtain ⟨item, hstep, hitems, hcount⟩ := step_bitmap hidle hp (by omega)
    have hlast : selectedClasses (clearFirst w) = 0 := by omega
    rw [run_succ_of_step hstep, restOfBitmap, if_pos hlast, hitems, hopItems_of_no_class _ hlast, List.append_nil]
    rfl
  | succ n ih =>
    obtain ⟨item, hstep, hitems, hcount⟩ := step_bitmap hidle hp (by omega)
    have hmore : selectedClasses (clearFirst w) = n + 1 := by omega
    have hrest : restOfBitmap k w rest = .bitmap k (clearFirst w) :: rest := by
      rw [restOfBitmap, if_neg (by omega)]
    have hrun := ih (s := { s with pending := restOfBitmap k w rest, stack := s.stack ++ item }) hidle hrest hmore
    rw [run_succ_of_step hstep, hrun, hitems, List.append_assoc]

theorem exec_encodeHop {s : State} (hidle : s.runState = .idle) (k : HopIndex) (w : BitVec 16) :
    exec (.encodeHop k w) s = .next { s with stack := s.stack ++ hopItems (s.record.hop k) w } :=
  whenIdle_of_idle hidle _

/-- A bitmap selects no instruction exactly where no class is selected. -/
theorem decodeBitmap_none_of_no_class (k : HopIndex) {w : BitVec 16} (h : selectedClasses w = 0) : decodeBitmap k w = none := by
  cases hd : decodeBitmap k w with
  | none => rfl
  | some i =>
    obtain ⟨-, -, -, hcount⟩ := firstInstruction_appends_item hd
    omega

/-- Settles O18: the steps append the items one by one, and a bitmap without a class is taken off the inputs. -/
theorem bitmapStepsAmountToEncodeHop : Obligations.BitmapStepsAmountToEncodeHop := by
  intro s k w rest hidle hp
  have hexec : exec (.encodeHop k w) { s with pending := rest }
      = .next { s with pending := rest, stack := s.stack ++ hopItems (s.record.hop k) w } :=
    exec_encodeHop (s := { s with pending := rest }) hidle k w
  refine ⟨fun hpos => ?_, fun hzero => ?_⟩
  · obtain ⟨n, hn⟩ : ∃ n, selectedClasses w = n + 1 := Nat.exists_eq_succ_of_ne_zero hpos.ne'
    have hrun := run_bitmap n hidle hp hn
    rw [← hn] at hrun
    exact hrun.trans hexec.symm
  · have hstep := step_of_fetch_quiet (fetch_bitmap_none hp (decodeBitmap_none_of_no_class k hzero))
    rw [hopItems_of_no_class _ hzero, List.append_nil] at hexec
    exact ⟨hstep, hstep.trans hexec.symm⟩

end Sys2Proof.Machine
end

section
/-! PROOF. BUILD (O23, O28): OUT reads as the packet of R60, and where its length fields, zero checksums and counts stand. -/

namespace Sys2Proof.Machine

/-- BUILD in IDLE, where its writes are done. -/
theorem exec_build_done {s : State} {sequence reportTs : BitVec 32} {supplied : Bool} {m : Memory} (hidle : s.runState = .idle)
    (hm : buildOp s.cfg s.record sequence reportTs (if supplied then some s.stack else none) = .done m) :
    exec (.build sequence reportTs supplied) s = .next { s with out := m } := by
  simp only [exec, execBuild, whenIdle_of_idle hidle, hm]

/-- Settles O23: BUILD writes the packet around its own stack, or around the one handed to it. -/
theorem buildWritesTheWireFormat : Obligations.BuildWritesTheWireFormat := by
  intro s sequence reportTs supplied hidle hvalid hc hgiven
  cases supplied with
  | false =>
    obtain ⟨m, hm, hread⟩ := buildOp_spec s.cfg s.record sequence reportTs none hvalid hc nofun
    exact ⟨wirePacket_length _ _ _ _ _ (wireStack_length_of_consistent s.record hc), m, exec_build_done hidle hm, hread⟩
  | true =>
    have hlen : s.stack.length + 16 = 4 * s.record.words := hgiven rfl
    obtain ⟨m, hm, hread⟩ := buildOp_spec s.cfg s.record sequence reportTs (some s.stack) hvalid hc (by rintro b ⟨⟩; exact hlen)
    exact ⟨wirePacket_length _ _ _ _ _ hlen, m, exec_build_done hidle hm, hread⟩

/-! ### Fields of the packet (R72, R166, R167) -/

section
variable {m : Memory} {p : List Byte}

/-- A byte of a memory that reads as a list. -/
theorem read_eq_octetAt (hr : ∀ a, m.read a = p[a]?) {a : Nat} (h : a < p.length) : m.read a = some (octetAt p a) := by
  rw [hr, octetAt, List.getD_eq_getElem?_getD, List.getElem?_eq_getElem h, Option.getD_some]

/-- A run of bytes of a memory that reads as a list. -/
theorem readBytes_eq_memRead (hr : ∀ a, m.read a = p[a]?) {a n : Nat} (h : a + n ≤ p.length) :
    m.readBytes a n = some (memRead p a n) := by
  refine (Memory.readBytes_eq_some _ _ _ _).2 ⟨?_, fun i hi => ?_⟩
  · rw [memRead, List.length_take, List.length_drop]
    omega
  · rw [hr, memRead, List.getElem?_take_of_lt hi, List.getElem?_drop]

end

theorem memRead_skip {pre raw : List Byte} {a n : Nat} (h : pre.length ≤ a) :
    memRead (pre ++ raw) a n = memRead raw (a - pre.length) n := by
  rw [memRead, memRead, List.drop_append, List.drop_eq_nil_of_le h, List.nil_append]

section
variable (c : Cfg) (r : CapturedRecord) (sq ts : BitVec 32) (st : List Byte)

/-- The 16-bit fields of the packet that hold a length: the two outer ones, then the two inner ones (R61, R62, R65, R66). -/
theorem wirePacket_lengthFields :
    memRead (wirePacket c r sq ts st) 2 2 = lengthField (93 + 4 * r.words) ∧
    memRead (wirePacket c r sq ts st) 24 2 = lengthField (73 + 4 * r.words) ∧
    memRead (wirePacket c r sq ts st) 56 2 = lengthField (39 + 4 * r.words) ∧
    memRead (wirePacket c r sq ts st) 78 2 = lengthField (19 + 4 * r.words) := by
  obtain ⟨hip, hudp, hreport, heth, hinner, -⟩ := wire_lengths c r sq ts (csum16 (wireInnerIpv4 c r 0))
  simp only [wirePacket, List.append_assoc, memRead_skip, hip, hudp, hreport, heth, hinner, Nat.reduceLeDiff, Nat.reduceSub]
  exact ⟨rfl, rfl, rfl, rfl⟩

/-- The three checksums that are not computed (R61, R62, R66). -/
theorem wirePacket_zeroChecksums :
    memRead (wirePacket c r sq ts st) 10 2 = [0, 0] ∧ memRead (wirePacket c r sq ts st) 26 2 = [0, 0] ∧
    memRead (wirePacket c r sq ts st) 80 2 = [0, 0] := by
  obtain ⟨hip, hudp, hreport, heth, hinner, -⟩ := wire_lengths c r sq ts (csum16 (wireInnerIpv4 c r 0))
  simp only [wirePacket, List.append_assoc, memRead_skip, hip, hudp, hreport, heth, hinner, Nat.reduceLeDiff, Nat.reduceSub]
  exact ⟨rfl, rfl, rfl⟩

/-- The shim's length, the hop count and the high half of the bitmap (R67, R68). -/
theorem wirePacket_intHeaders :
    octetAt (wirePacket c r sq ts st) 84 = r.intLength ∧
    octetAt (wirePacket c r sq ts st) 89 = BitVec.ofNat 8 r.nhops ∧
    octetAt (wirePacket c r sq ts st) 90 = r.insBitmap.extractLsb' 8 8 := by
  obtain ⟨hip, hudp, hreport, heth, hinner, hinudp, -⟩ := wire_lengths c r sq ts (csum16 (wireInnerIpv4 c r 0))
  simp only [wirePacket, List.append_assoc, octetAt_skip, hip, hudp, hreport, heth, hinner, hinudp, Nat.reduceLeDiff,
    Nat.reduceSub]
  exact ⟨rfl, rfl, rfl⟩

end

/-- The stack length from the counts on the wire (R15, R72). -/
theorem wire_counts_of_consistent {r : CapturedRecord} (hc : r.consistent = true) :
    4 * ((BitVec.ofNat 8 r.nhops).toNat * popcount (r.insBitmap.extractLsb' 8 8)) + 16 = 4 * r.intLength.toNat := by
  have hhops : (BitVec.ofNat 8 r.nhops).toNat = r.nhops := by
    have := nhops_lt_three r
    rw [BitVec.toNat_ofNat]
    omega
  have hstack : r.stackBytes = 4 * (r.nhops * popcount (r.insBitmap.extractLsb' 8 8)) := Nat.mul_left_comm _ _ _
  rw [hhops, ← hstack]
  exact (declares_iff r r.stackBytes).1 hc

/-- Settles O28: each field is read from the packet that BUILD wrote. -/
theorem builtLengthFieldsAgree : Obligations.BuiltLengthFieldsAgree := by
  intro s sequence reportTs hidle hvalid hc
  obtain ⟨hlen, m, hm, hr⟩ := buildWritesTheWireFormat s sequence reportTs false hidle hvalid hc nofun
  simp only [Bool.false_eq_true, if_false] at hlen hr
  obtain ⟨h2, h24, h56, h78⟩ := wirePacket_lengthFields s.cfg s.record sequence reportTs (wireStack s.record)
  obtain ⟨h10, h26, h80⟩ := wirePacket_zeroChecksums s.cfg s.record sequence reportTs (wireStack s.record)
  obtain ⟨h84, h89, h90⟩ := wirePacket_intHeaders s.cfg s.record sequence reportTs (wireStack s.record)
  have hfield (a : Nat) (l : List Byte) (ha : a + 2 ≤ 93) (hl : memRead _ a 2 = l) : m.readBytes a 2 = some l :=
    hl ▸ readBytes_eq_memRead hr (by omega)
  have hoctet (a : Nat) (b : Byte) (ha : a < 93) (hb : octetAt _ a = b) : m.read a = some b :=
    hb ▸ read_eq_octetAt hr (by omega)
  have htotal : s.record.total = 93 + 4 * s.record.words := rfl
  have h20 : s.record.total - 20 = 73 + 4 * s.record.words := by omega
  have h54 : s.record.total - 54 = 39 + 4 * s.record.words := by omega
  have h74 : s.record.total - 74 = 19 + 4 * s.record.words := by omega
  rw [h20, h54, h74, htotal]
  exact ⟨m, BitVec.ofNat 8 s.record.nhops, s.record.insBitmap.extractLsb' 8 8, hm,
    hfield 2 _ (by decide) h2, hfield 24 _ (by decide) h24, hfield 56 _ (by decide) h56, hfield 78 _ (by decide) h78,
    hoctet 84 _ (by decide) h84, hfield 10 _ (by decide) h10, hfield 26 _ (by decide) h26, hfield 80 _ (by decide) h80,
    hoctet 89 _ (by decide) h89, hoctet 90 _ (by decide) h90, wire_counts_of_consistent hc⟩

end Sys2Proof.Machine
end

section
/-! PROOF. The checksum (O21, O22, O27, O55): CSUM answers the complement of the folded sum of the words, and a header whose
checksum field was filled in verifies, as does the inner IPv4 header that BUILD leaves in OUT. -/

namespace Sys2Proof.Machine

/-- Settles O21: the sum that CSUM walks is the sum over the words, and enough folds leave its residue. -/
theorem csumIsTheOnesComplementSum : Obligations.CsumIsTheOnesComplementSum := by
  intro s bs hidle
  rw [← csum16_toNat, BitVec.ofNat_toNat]
  exact whenIdle_of_idle hidle _

/-! ### A checksum written into its field (R95) -/

/-- Writing a word over the zero word number `k` adds its value to the sum, by induction on the words before it. -/
theorem bigEndianWordSum_set_zero_word (k : Nat) {h : List Byte} (hi lo : Byte) (h0 : h[2 * k]? = some 0)
    (h1 : h[2 * k + 1]? = some 0) :
    bigEndianWordSum ((h.set (2 * k) hi).set (2 * k + 1) lo) = bigEndianWordSum h + (hi.toNat * 256 + lo.toNat) := by
  induction k generalizing h with
  | zero =>
    match h, h0, h1 with
    | a :: b :: t, h0, h1 =>
      obtain rfl : a = 0 := by simpa using h0
      obtain rfl : b = 0 := by simpa using h1
      simp [bigEndianWordSum_cons_cons, Nat.add_comm]
  | succ k ih =>
    match h, h0, h1 with
    | a :: b :: t, h0, h1 =>
      have htail := ih (h := t) h0 h1
      rw [bigEndianWordSum_cons_cons, Nat.add_assoc, ← htail]
      exact bigEndianWordSum_cons_cons _ _ _

theorem foldedSum_eq_residue (bs : List Byte) : foldedSum bs = foldedResidue (bigEndianWordSum bs) := by
  rw [foldedSum_eq, wordSum_padEven]

/-- Settles O22: the checksum is added to the sum as a word of its own, and a sum with its own complement folds to 0xFFFF. -/
theorem checksumVerifiesOnceWritten : Obligations.ChecksumVerifiesOnceWritten := by
  intro h _ h10 h11 h'
  have hsum : bigEndianWordSum h' = bigEndianWordSum h + (csum16 h).toNat := by
    rw [← toNat_octets16 (csum16 h)]
    exact bigEndianWordSum_set_zero_word 5 _ _ h10 h11
  have hfold : foldedSum h' = 0xFFFF := by
    rw [foldedSum_eq_residue, hsum, foldedResidue_add_complement _ _ (csum16_toNat h)]
  exact ⟨hfold, by rw [csum16, hfold]; rfl⟩

/-! ### The inner IPv4 header of a report (R158) -/

section
variable (c : Cfg) (r : CapturedRecord)

/-- The header verifies once its checksum, taken over the zero field, stands in it. -/
theorem csum16_wireInnerIpv4_filled : csum16 (wireInnerIpv4 c r (csum16 (wireInnerIpv4 c r 0))) = 0 := by
  rw [wireInnerIpv4_checksum c r (csum16 _)]
  exact (checksumVerifiesOnceWritten (wireInnerIpv4 c r 0) rfl rfl rfl).2

/-- Zeroing the checksum field of a header gives the header the checksum was taken over. -/
theorem wireInnerIpv4_checksum_zeroed (v : BitVec 16) : ((wireInnerIpv4 c r v).set 10 0).set 11 0 = wireInnerIpv4 c r 0 :=
  rfl

/-- `OUT:54..73` of the packet (R65). -/
theorem wirePacket_innerIpv4 (sq ts : BitVec 32) (st : List Byte) :
    memRead (wirePacket c r sq ts st) 54 20 = wireInnerIpv4 c r (csum16 (wireInnerIpv4 c r 0)) := by
  obtain ⟨hip, hudp, hreport, heth, hinner, -⟩ := wire_lengths c r sq ts (csum16 (wireInnerIpv4 c r 0))
  simp only [wirePacket, List.append_assoc, memRead_skip, hip, hudp, hreport, heth, Nat.reduceLeDiff, Nat.reduceSub]
  exact List.take_left' hinner

end

/-- After BUILD, with its own stack or with one handed to it, `OUT:54..73` holds the inner header with its checksum filled in. -/
theorem exec_build_innerIpv4 {s : State} (sequence reportTs : BitVec 32) {supplied : Bool} (hidle : s.runState = .idle)
    (hvalid : s.record.intValid = true) (hc : s.record.consistent = true)
    (hgiven : supplied = true → s.stack.length + 16 = 4 * s.record.intLength.toNat) :
    ∃ m : Memory, exec (.build sequence reportTs supplied) s = .next { s with out := m } ∧
      m.readBytes 54 20 = some (wireInnerIpv4 s.cfg s.record (csum16 (wireInnerIpv4 s.cfg s.record 0))) := by
  obtain ⟨hlen, m, hm, hr⟩ := buildWritesTheWireFormat s sequence reportTs supplied hidle hvalid hc hgiven
  refine ⟨m, hm, ?_⟩
  rw [readBytes_eq_memRead hr (by omega), wirePacket_innerIpv4]

/-- Settles O27: the header in OUT is the one whose checksum was filled in. -/
theorem builtInnerHeaderVerifies : Obligations.BuiltInnerHeaderVerifies := by
  intro s sequence reportTs hidle hvalid hc
  obtain ⟨m, hm, hheader⟩ := exec_build_innerIpv4 sequence reportTs (supplied := false) hidle hvalid hc nofun
  exact ⟨m, _, hm, hheader, csum16_wireInnerIpv4_filled s.cfg s.record⟩

/-- Settles O55: `OUT:64` and `OUT:65` are bytes 10 and 11 of the header in OUT. -/
theorem innerChecksumIsStoredHighByteFirst : Obligations.InnerChecksumIsStoredHighByteFirst := by
  intro s sequence reportTs supplied hidle hvalid hc hgiven
  obtain ⟨m, hm, hheader⟩ := exec_build_innerIpv4 sequence reportTs hidle hvalid hc hgiven
  obtain ⟨-, hbyte⟩ := (Memory.readBytes_eq_some _ _ _ _).1 hheader
  refine ⟨_, _, hm, hheader, ?_, ?_, csum16_wireInnerIpv4_filled s.cfg s.record⟩
  · rw [wireInnerIpv4_checksum_zeroed]
    exact hbyte 10 (by decide)
  · rw [wireInnerIpv4_checksum_zeroed]
    exact hbyte 11 (by decide)

end Sys2Proof.Machine
end

section
/-! PROOF. DECODE (O7, O8): the two answers of R100, on 128 bytes and on any other length. -/

namespace Sys2Proof.Machine

/-- Any length but 128 is rejected before a byte is read, whatever the buffer holds (R100, R202). -/
theorem decodeOp_malformed (c : Cfg) {len : Nat} (raw : List Byte) (h : len ≠ recLen) :
    decodeOp c len raw = .raised (.malformedRecord len) :=
  if_pos h

/-- A kind whose loop state is the one the engine is in leaves nothing behind but its log entry (R201, R207). -/
theorem raiseError_eq_emit {k : ErrorKind} {s : State} (h : s.runState = k.loopAfter) : raiseError k s = s.emit (.log k) := by
  rw [raiseError, ← h]
  rfl

/-- DECODE of 128 bytes writes `rec` and REC, and nothing else (R100). -/
theorem exec_decode_record {s : State} {raw : List Byte} (hidle : s.runState = .idle) (hraw : raw.length = recLen) :
    exec (.decode recLen raw) s = .next { s with record := decodeFields s.cfg raw, recBuf := loadRec raw } := by
  have hop := decodeOp_of_decodeRec (decodeRec_loadRec s.cfg raw hraw)
  simp only [exec, execDecode, whenIdle_of_idle hidle, hop]

/-- DECODE of any other length raises MalformedRecord, and nothing is decoded (R100, R202). -/
theorem exec_decode_malformed {s : State} {len : Nat} (raw : List Byte) (hidle : s.runState = .idle) (hlen : len ≠ recLen) :
    exec (.decode len raw) s = .next (raiseError (.malformedRecord len) s) := by
  simp only [exec, execDecode, whenIdle_of_idle hidle, decodeOp_malformed s.cfg raw hlen]

/-- Settles O7: REC reads as the bytes, and the fields assembled from it are those at the default layout's offsets. -/
theorem decodeAssemblesEveryField : Obligations.DecodeAssemblesEveryField := by
  intro s raw hidle hraw
  exact ⟨loadRec raw, exec_decode_record hidle hraw, fun a => loadRec_read raw a hraw,
    fun hl => decodeFields_default s.cfg raw hl hraw⟩

/-- Settles O8: MalformedRecord leaves IDLE (R202), the loop state DECODE runs in, so that its log entry is the only change. -/
theorem decodeRejectsEveryOtherLength : Obligations.DecodeRejectsEveryOtherLength := by
  intro s len raw hidle hlen
  rw [exec_decode_malformed raw hidle hlen, raiseError_eq_emit hidle]
  rfl

end Sys2Proof.Machine
end

section
/-! PROOF. The items of the hop stack (O13, O14, O10, O11, O12, O16, O26): what one instruction appends, a hop's group cut at one of its
bits, and the two rejections of a stack whose length is not the declared one. -/

namespace Sys2Proof.Machine

/-! ### One instruction (R130 to R138) -/

/-- An instruction in IDLE that appends an item known by its octets. -/
theorem whenIdle_appendStack {s : State} (hidle : s.runState = .idle) {item octets : List Byte} (h : item = octets) :
    s.whenIdle (.next (s.appendStack item)) = .next { s with stack := s.stack ++ octets } := by
  rw [whenIdle_of_idle hidle, h]
  rfl

/-- The octets of an 8-bit id before those of its 24-bit value (R134, R137). -/
theorem beBytes_pair (id : BitVec 8) (v : BitVec 24) : beBytes 1 id.toNat ++ beBytes 3 v.toNat = id :: octets24 v := by
  rw [beBytes_octet, beBytes_octets24, List.singleton_append]

/-- Settles O10: each of the five items is one 32-bit field. -/
theorem wordInstructionsAppendFourOctets : Obligations.WordInstructionsAppendFourOctets := by
  intro s k hidle
  exact ⟨whenIdle_appendStack hidle (beBytes_octets32 _), whenIdle_appendStack hidle (beBytes_octets32 _),
    whenIdle_appendStack hidle (beBytes_octets32 _), whenIdle_appendStack hidle (beBytes_octets32 _),
    whenIdle_appendStack hidle (beBytes_octets32 _)⟩

/-- Settles O11: the item is the ingress port, then the egress port. -/
theorem portsInstructionAppendsIngressFirst : Obligations.PortsInstructionAppendsIngressFirst := by
  intro s k hidle
  exact whenIdle_appendStack hidle (congrArg₂ (· ++ ·) (beBytes_octets16 _) (beBytes_octets16 _))

/-- Settles O12: both items are an id before its value. -/
theorem pairInstructionsAppendIdThenValue : Obligations.PairInstructionsAppendIdThenValue := by
  intro s k hidle
  exact ⟨whenIdle_appendStack hidle (beBytes_pair _ _), whenIdle_appendStack hidle (beBytes_pair _ _)⟩

/-! ### A hop's group (R69, R139, R142) -/

theorem exec_encodeHop_wireGroup {s : State} (hidle : s.runState = .idle) (k : HopIndex) (bmp : BitVec 16) :
    exec (.encodeHop k bmp) s = .next { s with stack := s.stack ++ wireGroup (s.record.hop k) bmp } :=
  whenIdle_appendStack hidle (hopItems_eq_wireGroup _ _)

/-- Settles O13: ENCODE_HOP appends the group of R69, four bytes for each selected class. -/
theorem encodeHopAppendsSelectedItems : Obligations.EncodeHopAppendsSelectedItems := by
  intro s k bmp hidle
  exact ⟨exec_encodeHop_wireGroup hidle k bmp, wireGroup_length _ bmp⟩

theorem wireItem_length (h : HopFields) {b : Nat} (h8 : 8 ≤ b) (h16 : b < 16) : (wireItem h b).length = 4 := by
  interval_cases b <;> rfl

section
variable {w : Nat} (bmp : BitVec w) (b i : Nat)

/-- A mask matters only within the width of what it masks. -/
theorem getLsbD_and_mask {mask : BitVec w} {kept : Bool} (h : i < w → mask.getLsbD i = kept) :
    (bmp &&& mask).getLsbD i = (kept && bmp.getLsbD i) := by
  rw [BitVec.getLsbD_and]
  cases hi : bmp.getLsbD i with
  | false => rw [Bool.false_and, Bool.and_false]
  | true => rw [h (BitVec.lt_of_getLsbD hi), Bool.and_comm]

theorem getLsbD_bits_above : (bmp &&& (BitVec.allOnes w <<< (b + 1))).getLsbD i = (decide (b < i) && bmp.getLsbD i) :=
  getLsbD_and_mask bmp i fun hw => by grind

theorem getLsbD_bits_below : (bmp &&& ~~~(BitVec.allOnes w <<< b)).getLsbD i = (decide (i < b) && bmp.getLsbD i) :=
  getLsbD_and_mask bmp i fun hw => by grind

theorem getLsbD_clear_bit : (bmp &&& ~~~(1#w <<< b)).getLsbD i = (decide (i ≠ b) && bmp.getLsbD i) :=
  getLsbD_and_mask bmp i fun hw => by grind

theorem clear_bit_bits_above :
    bmp &&& ~~~(1#w <<< b) &&& (BitVec.allOnes w <<< (b + 1)) = bmp &&& (BitVec.allOnes w <<< (b + 1)) := by
  refine BitVec.eq_of_getLsbD_eq fun i _ => ?_
  rw [getLsbD_bits_above, getLsbD_bits_above, getLsbD_clear_bit]
  grind

theorem clear_bit_bits_below :
    bmp &&& ~~~(1#w <<< b) &&& ~~~(BitVec.allOnes w <<< b) = bmp &&& ~~~(BitVec.allOnes w <<< b) := by
  refine BitVec.eq_of_getLsbD_eq fun i _ => ?_
  rw [getLsbD_bits_below, getLsbD_bits_below, getLsbD_clear_bit]
  grind

end

/-- A descending list cut at one of its members: what the members above it give, its own, and what those below it give. -/
theorem flatMap_cut_at {α : Type} (f : Nat → List α) {l : List Nat} (hl : l.Pairwise (· > ·)) {b : Nat} (hb : b ∈ l) :
    l.flatMap f = (l.flatMap fun i => if b < i then f i else []) ++ f b ++ l.flatMap fun i => if i < b then f i else [] := by
  induction l with
  | nil => cases hb
  | cons x xs ih =>
    obtain ⟨hx, hxs⟩ := List.pairwise_cons.1 hl
    rcases List.mem_cons.1 hb with rfl | hmem
    · have habove : (xs.flatMap fun i => if b < i then f i else []) = [] :=
        List.flatMap_eq_nil_iff.2 fun i hi => if_neg (by have := hx i hi; omega)
      have hbelow : (xs.flatMap fun i => if i < b then f i else []) = xs.flatMap f :=
        List.flatMap_congr fun i hi => if_pos (hx i hi)
      simp [habove, hbelow]
    · have hlt : b < x := hx b hmem
      simp [ih hxs hmem, hlt, hlt.le]

/-- A hop's group cut at one of the bits 15:8 (R69). -/
theorem wireGroup_cut_at (h : HopFields) (bmp : BitVec 16) {b : Nat} (h8 : 8 ≤ b) (h16 : b < 16) :
    wireGroup h bmp = wireGroup h (bmp &&& (BitVec.allOnes 16 <<< (b + 1))) ++ (if bmp.getLsbD b then wireItem h b else [])
      ++ wireGroup h (bmp &&& ~~~(BitVec.allOnes 16 <<< b)) := by
  have hmem : b ∈ [15, 14, 13, 12, 11, 10, 9, 8] := by interval_cases b <;> decide
  simp only [wireGroup, getLsbD_bits_above, getLsbD_bits_below, Bool.and_eq_true, decide_eq_true_eq, ite_and]
  exact flatMap_cut_at _ (by decide) hmem

/-- Settles O14: both groups are cut at `b`; they agree above and below it, and only the first has an item there. -/
theorem clearingABitRemovesItsItem : Obligations.ClearingABitRemovesItsItem := by
  intro s k bmp b hidle h8 h16 hset
  have hwith := wireGroup_cut_at (s.record.hop k) bmp h8 h16
  have hwithout := wireGroup_cut_at (s.record.hop k) (bmp &&& ~~~(1#16 <<< b)) h8 h16
  have hcleared : (bmp &&& ~~~(1#16 <<< b)).getLsbD b = false := by simp
  rw [hset, if_pos rfl] at hwith
  rw [hcleared, if_neg Bool.false_ne_true, List.append_nil, clear_bit_bits_above, clear_bit_bits_below] at hwithout
  refine ⟨_, _, wireItem_length _ h8 h16, rfl, rfl, ?_, ?_⟩
  · rw [exec_encodeHop_wireGroup hidle, hwith]
  · rw [exec_encodeHop_wireGroup hidle, hwithout]

/-! ### The two rejections (R141, R203) -/

/-- Settles O16: ENCODE_HOPS raises after it serialized, and ProtocolInconsistency leaves IDLE, the loop state it runs in. -/
theorem encodeHopsRejectsAnInconsistentLength : Obligations.EncodeHopsRejectsAnInconsistentLength := by
  intro s hidle hlen
  have hop := encodeHopsOp_inconsistent s.record (consistent_eq_false s.record hlen)
  simp only [exec, execEncodeHops, whenIdle_of_idle hidle, hop, hopsBytes_eq_wireStack]
  rw [raiseError_eq_emit hidle]
  rfl

/-- BUILD rejects a stack that is not of the declared length before it writes (log 10). -/
theorem buildOp_stack_of_other_length (c : Cfg) {r : CapturedRecord} (sq ts : BitVec 32) {st : List Byte}
    (hvalid : r.intValid = true) (hc : r.consistent = true) (hlen : st.length + 16 ≠ 4 * r.intLength.toNat) :
    buildOp c r sq ts (some st) = .raised (.protocolInconsistency r.intLength.toNat st.length) := by
  have hdeclares : r.declares st.length = false := Bool.eq_false_iff.2 fun h => hlen ((declares_iff r st.length).1 h)
  simp only [buildOp, buildWith, hvalid, hc, hdeclares]
  rfl

/-- BUILD in IDLE, where it raises: no byte of OUT holds a value (log 8). -/
theorem exec_build_raised {s : State} {sequence reportTs : BitVec 32} {supplied : Bool} {kind : ErrorKind}
    (hidle : s.runState = .idle)
    (hk : buildOp s.cfg s.record sequence reportTs (if supplied then some s.stack else none) = .raised kind) :
    exec (.build sequence reportTs supplied) s = .next (raiseError kind { s with out := [] }) := by
  simp only [exec, execBuild, whenIdle_of_idle hidle, hk]

/-- Settles O26: the supplied stack is rejected, and ProtocolInconsistency leaves IDLE. -/
theorem buildRejectsAStackOfAnotherLength : Obligations.BuildRejectsAStackOfAnotherLength := by
  intro s sequence reportTs hidle hvalid hc hlen
  rw [exec_build_raised hidle (buildOp_stack_of_other_length s.cfg sequence reportTs hvalid hc hlen),
    raiseError_eq_emit hidle]
  rfl

end Sys2Proof.Machine
end

section
/-! PROOF. What BUILD rejects in the record itself (O24, O25): its two checks before the first write. -/

namespace Sys2Proof.Machine

/-- `int_valid` is the first check, before any stack is looked at (R150). -/
theorem buildOp_without_int (c : Cfg) {r : CapturedRecord} (sq ts : BitVec 32) (stack : Option (List Byte))
    (hvalid : r.intValid = false) : buildOp c r sq ts stack = .raised .preconditionViolation := by
  simp only [buildOp, hvalid, Bool.not_false, if_true]

/-- On an inconsistent record a supplied stack changes nothing: BUILD's own check and the one inside ENCODE_HOPS raise the same
kind with the same L and S (R141, R150). -/
theorem buildOp_inconsistent (c : Cfg) {r : CapturedRecord} (sq ts : BitVec 32) (stack : Option (List Byte))
    (hvalid : r.intValid = true) (hc : r.consistent = false) :
    buildOp c r sq ts stack = .raised (.protocolInconsistency r.intLength.toNat r.stackBytes) := by
  cases stack with
  | none => simp only [buildOp, hvalid, encodeHopsOp_inconsistent r hc, Bool.not_true, Bool.false_eq_true, if_false]
  | some bs =>
    simp only [buildOp, buildWith, hvalid, hc, Bool.not_true, Bool.not_false, Bool.false_eq_true, if_false, if_true,
      CapturedRecord.words]

/-- Settles O24: PreconditionViolation is raised, and the loop state it leads to is STOPPED. -/
theorem buildStopsOnARecordWithoutInt : Obligations.BuildStopsOnARecordWithoutInt := by
  intro s sequence reportTs supplied hidle hvalid
  rw [exec_build_raised hidle (buildOp_without_int s.cfg sequence reportTs _ hvalid)]
  rfl

/-- Settles O25: whichever stack BUILD uses, the same kind is raised, and ProtocolInconsistency leaves IDLE. -/
theorem buildRejectsAnInconsistentRecord : Obligations.BuildRejectsAnInconsistentRecord := by
  intro s sequence reportTs supplied hidle hvalid hlen
  have hc : s.record.consistent = false := consistent_eq_false s.record hlen
  rw [exec_build_raised hidle (buildOp_inconsistent s.cfg sequence reportTs _ hvalid hc), raiseError_eq_emit hidle]
  rfl

end Sys2Proof.Machine
end

section
/-! PROOF. The sequencer (O19, O20): one SEQ_NEXT in IDLE, and a run of scheduled ones, by induction on their number. -/

namespace Sys2Proof.Machine

/-- SEQ_NEXT in IDLE: the counter and the returned number are both one more (R180, log 5). -/
theorem exec_seqNext {s : State} (hidle : s.runState = .idle) :
    exec .seqNext s = .next { s with seq := s.seq + 1, ret := s.seq + 1 } :=
  whenIdle_of_idle hidle _

/-- Settles O19: the increment, whose value wraps at 2^32. -/
theorem seqNextReturnsTheIncrementedCounter : Obligations.SeqNextReturnsTheIncrementedCounter := by
  intro s hidle
  exact ⟨exec_seqNext hidle, BitVec.toNat_add s.seq 1⟩

/-- A scheduled SEQ_NEXT, as a step: the call is taken off the inputs and the counter incremented (log 1). -/
theorem step_invoke_seqNext {s : State} {rest : List Input} (hidle : s.runState = .idle)
    (hp : s.pending = .invoke .quiet .seqNext :: rest) :
    step s = .next { s with pending := rest, ports := .quiet, seq := s.seq + 1, ret := s.seq + 1 } :=
  (step_of_fetch_run (fetch_invoke hp)).trans
    (exec_seqNext (s := { s with pending := rest, ports := .quiet }) hidle)

/-- As many steps as calls are scheduled, from any counter value, by induction on the calls still to come. -/
theorem run_seqNext (n : Nat) {s : State} (hidle : s.runState = .idle)
    (hp : s.pending = List.replicate (n + 1) (.invoke .quiet .seqNext)) :
    Host.Core.run core (n + 1) s
      = .next { s with
          pending := []
          ports := .quiet
          seq := s.seq + BitVec.ofNat 32 (n + 1)
          ret := s.seq + BitVec.ofNat 32 (n + 1) } := by
  induction n generalizing s with
  | zero =>
    rw [run_succ_of_step (step_invoke_seqNext hidle hp)]
    rfl
  | succ n ih =>
    have hrun := ih (s := { s with
      pending := List.replicate (n + 1) (.invoke .quiet .seqNext)
      ports := .quiet
      seq := s.seq + 1
      ret := s.seq + 1 }) hidle rfl
    have hcount : s.seq + 1 + BitVec.ofNat 32 (n + 1) = s.seq + BitVec.ofNat 32 (n + 1 + 1) := by
      rw [BitVec.ofNat_add (n + 1) 1, BitVec.add_assoc, BitVec.add_comm 1]
      rfl
    rw [run_succ_of_step (step_invoke_seqNext hidle hp), hrun, hcount]

/-- Numbers less than 2^32 apart differ modulo 2^32. -/
theorem ofNat_ne_of_lt_of_lt_add {i j : Nat} (hlt : i < j) (hnear : j < i + 2 ^ 32) :
    BitVec.ofNat 32 i ≠ BitVec.ofNat 32 j := by
  intro h
  have hmod : i % 2 ^ 32 = j % 2 ^ 32 := by
    simpa only [BitVec.toNat_ofNat] using congrArg BitVec.toNat h
  omega

/-- Settles O20: the run of n calls counts from 0 to n, and n mod 2^32 recurs no sooner than after 2^32 calls. -/
theorem seqNextCallsCountWithoutDuplicates : Obligations.SeqNextCallsCountWithoutDuplicates := by
  refine ⟨fun n hn => ?_, fun i j => ofNat_ne_of_lt_of_lt_add⟩
  obtain ⟨m, rfl⟩ : ∃ m, n = m + 1 := Nat.exists_eq_succ_of_ne_zero (Nat.one_le_iff_ne_zero.1 hn)
  have hzero : State.reset.seq + BitVec.ofNat 32 (m + 1) = BitVec.ofNat 32 (m + 1) := BitVec.zero_add _
  have hrun := run_seqNext m
    (s := { State.reset with pending := List.replicate (m + 1) (.invoke .quiet .seqNext) }) rfl rfl
  rw [hzero] at hrun
  exact hrun

end Sys2Proof.Machine
end

section
/-! PROOF. The processing loop (O30 to O39): the rows of R188 as a relation between the presented inputs and the outcome they select,
PROCESS and that outcome row by row, and one transition of R186 at a time. -/

namespace Sys2Proof.Machine

/-! ### The rows of R188 -/

/-- The outcome whose row of R188 the presented inputs fall under, with what is found there. A record that claims 128 bytes and
brings fewer shows no `int_valid` (log 15), and its outcome stops at the unwritten byte (log 7). -/
inductive SelectsOutcome (c : Cfg) (p : Ports) : Instr → Prop where
  | stop (hs : p.stop = true) : SelectsOutcome c p .processStop
  | malformed {r : RecIn} (hs : p.stop = false) (hr : p.recIn = some r) (hl : r.len ≠ recLen) :
      SelectsOutcome c p .processSkipMalformed
  | unwritten {r : RecIn} (hs : p.stop = false) (hr : p.recIn = some r) (hl : r.len = recLen)
      (hd : decodeRec c (loadRec r.raw) = none) : SelectsOutcome c p .processSkipNoint
  | skip {r : RecIn} {d : CapturedRecord} (hs : p.stop = false) (hr : p.recIn = some r) (hl : r.len = recLen)
      (hd : decodeRec c (loadRec r.raw) = some d) (hv : d.intValid = false) : SelectsOutcome c p .processSkipNoint
  | reject {r : RecIn} {d : CapturedRecord} (hs : p.stop = false) (hr : p.recIn = some r) (hl : r.len = recLen)
      (hd : decodeRec c (loadRec r.raw) = some d) (hv : d.intValid = true) (hc : d.consistent = false) :
      SelectsOutcome c p .processReject
  | report {r : RecIn} {d : CapturedRecord} (hs : p.stop = false) (hr : p.recIn = some r) (hl : r.len = recLen)
      (hd : decodeRec c (loadRec r.raw) = some d) (hv : d.intValid = true) (hc : d.consistent = true) :
      SelectsOutcome c p .processReport

/-- The condition word of the inputs decodes to the outcome of their row (R209). -/
theorem SelectsOutcome.decodeCondition_eq {c : Cfg} {p : Ports} {i : Instr} (h : SelectsOutcome c p i) (hreset : p.reset = false) :
    decodeCondition (conditionWord c p) = i := by
  rw [conditionWord, decodeCondition_ofBool, hreset]
  cases h with
  | stop hs => simp [hs]
  | malformed hs hr hl => simp [hs, Ports.has128, hr, hl]
  | unwritten hs hr hl hd => simp [hs, Ports.has128, presentedRecord, hr, hl, hd]
  | skip hs hr hl hd hv => simp [hs, Ports.has128, presentedRecord, hr, hl, hd, hv]
  | reject hs hr hl hd hv hc => simp [hs, Ports.has128, presentedRecord, hr, hl, hd, hv, hc]
  | report hs hr hl hd hv hc => simp [hs, Ports.has128, presentedRecord, hr, hl, hd, hv, hc]

/-- Inputs that fall under a row show a stop request or a record. -/
theorem SelectsOutcome.present {c : Cfg} {p : Ports} {i : Instr} (h : SelectsOutcome c p i) : p.present = true := by
  cases h with
  | stop hs => simp [Ports.present, hs]
  | malformed _ hr | unwritten _ hr | skip _ hr | reject _ hr | report _ hr => simp [Ports.present, hr]

/-- A stop request and every record fall under a row (R188). -/
theorem exists_selectsOutcome (c : Cfg) {p : Ports} (hreset : p.reset = false) (hp : p.present = true) :
    ∃ i, SelectsOutcome c p i := by
  cases hs : p.stop with
  | true => exact ⟨_, .stop hs⟩
  | false =>
    cases hr : p.recIn with
    | none => simp [Ports.present, hreset, hs, hr] at hp
    | some r =>
      by_cases hl : r.len = recLen
      · cases hd : decodeRec c (loadRec r.raw) with
        | none => exact ⟨_, .unwritten hs hr hl hd⟩
        | some d =>
          cases hv : d.intValid with
          | false => exact ⟨_, .skip hs hr hl hd hv⟩
          | true =>
            cases hc : d.consistent with
            | false => exact ⟨_, .reject hs hr hl hd hv hc⟩
            | true => exact ⟨_, .report hs hr hl hd hv hc⟩
      · exact ⟨_, .malformed hs hr hl⟩

/-! ### An outcome whose row applies -/

section
variable {s : State} (h : s.runState = .idle)
include h

theorem execProcessStop_stop (hs : s.ports.stop = true) : execProcessStop s = .next (s.endIteration .stopped) := by
  simp only [execProcessStop, whenIdle_of_idle h, if_pos hs]

variable {r : RecIn} (hs : s.ports.stop = false) (hr : s.ports.recIn = some r)
include hs hr

theorem execProcessSkipMalformed_malformed (hl : r.len ≠ recLen) :
    execProcessSkipMalformed s = .next ((raiseError (.malformedRecord r.len) s).endIteration .idle) := by
  simp [execProcessSkipMalformed, whenIdle_of_idle h, hs, hr, hl]

variable (hl : r.len = recLen)
include hl

theorem execProcessSkipNoint_unwritten (hd : decodeRec s.cfg (loadRec r.raw) = none) :
    execProcessSkipNoint s = .fault .recUnwritten := by
  simp [execProcessSkipNoint, whenIdle_of_idle h, hs, hr, hl, hd]

variable {d : CapturedRecord} (hd : decodeRec s.cfg (loadRec r.raw) = some d)
include hd

theorem execProcessSkipNoint_skip (hv : d.intValid = false) : execProcessSkipNoint s = .next (s.endIteration .idle) := by
  simp [execProcessSkipNoint, whenIdle_of_idle h, hs, hr, hl, hd, hv]

theorem execProcessReject_reject (hv : d.intValid = true) (hc : d.consistent = false) :
    execProcessReject s = .next ((raiseError (.protocolInconsistency d.words d.stackBytes) s).endIteration .idle) := by
  simp [execProcessReject, whenIdle_of_idle h, hs, hr, hl, hd, hv, hc]

end

/-- In IDLE the pass of R186 answers what the outcome of the row answers, in every row. -/
theorem SelectsOutcome.exec_process {s : State} {i : Instr} (h : SelectsOutcome s.cfg s.ports i) (hidle : s.runState = .idle) :
    exec .process s = exec i s := by
  cases h with
  | stop hs => exact (execProcess_stop hidle hs).trans (execProcessStop_stop hidle hs).symm
  | malformed hs hr hl =>
    exact (execProcess_malformed hidle hs hr hl).trans (execProcessSkipMalformed_malformed hidle hs hr hl).symm
  | unwritten hs hr hl hd =>
    exact (execProcess_unwritten hidle hs hr hl hd).trans (execProcessSkipNoint_unwritten hidle hs hr hl hd).symm
  | skip hs hr hl hd hv =>
    exact (execProcess_skip hidle hs hr hl hd hv).trans (execProcessSkipNoint_skip hidle hs hr hl hd hv).symm
  | reject hs hr hl hd hv hc =>
    exact (execProcess_reject hidle hs hr hl hd hv hc).trans (execProcessReject_reject hidle hs hr hl hd hv hc).symm
  | report hs hr hl hd hv hc =>
    exact (execProcess_report hidle hs hr hl hd hv hc).trans (execProcessReport_report hidle hs hr hl hd hv hc).symm

/-- Settles O35: the inputs fall under a row of R188, and their condition word decodes to its outcome. -/
theorem processIsTheOutcomeItsConditionSelects : Obligations.ProcessIsTheOutcomeItsConditionSelects := by
  intro s hidle hreset hpresent
  obtain ⟨i, hi⟩ := exists_selectsOutcome s.cfg hreset hpresent
  rw [hi.decodeCondition_eq hreset]
  exact hi.exec_process hidle

/-! ### The state each row leaves -/

/-- Settles O30: the stop request is sampled before any record is looked at (R187). -/
theorem stopRequestStopsTheLoop : Obligations.StopRequestStopsTheLoop := by
  intro s hidle hs
  exact ⟨execProcess_stop hidle hs, execProcessStop_stop hidle hs⟩

/-- Settles O31: MalformedRecord is logged, and the end of the iteration clears the scratch. -/
theorem malformedRecordIsLoggedAndSkipped : Obligations.MalformedRecordIsLoggedAndSkipped := by
  intro s r hidle hs hr hl
  exact ⟨execProcess_malformed hidle hs hr hl, execProcessSkipMalformed_malformed hidle hs hr hl⟩

/-- Settles O32: the record is decoded, and the iteration ends without an emission. -/
theorem recordWithoutIntIsSkippedSilently : Obligations.RecordWithoutIntIsSkippedSilently := by
  intro s r hidle hs hr hl hraw hv
  have hd := decodeRec_loadRec s.cfg r.raw hraw
  exact ⟨execProcess_skip hidle hs hr hl hd hv, execProcessSkipNoint_skip hidle hs hr hl hd hv⟩

/-- Settles O33: S is the number of hops times the bytes of one (R15). -/
theorem inconsistentRecordIsRejected : Obligations.InconsistentRecordIsRejected := by
  intro s r hidle hs hr hl hraw hv hc d t
  have hd := decodeRec_loadRec s.cfg r.raw hraw
  have hS : d.stackBytes = 4 * (d.nhops * selectedClasses d.insBitmap) := Nat.mul_left_comm ..
  have ht : t = (raiseError (.protocolInconsistency d.words d.stackBytes) s).endIteration .idle := by
    rw [hS]
    rfl
  rw [ht]
  exact ⟨execProcess_reject hidle hs hr hl hd hv hc, execProcessReject_reject hidle hs hr hl hd hv hc⟩

/-- The state a reporting iteration leaves, by the transmit answer (R189). -/
theorem afterReport_eq (s : State) (d : CapturedRecord) (r : RecIn) :
    s.afterReport d r = { s with
      seq := s.seq + 1, record := .blank, stack := [], recBuf := [], out := [],
      runState := if s.ports.txResult = .ok then .idle else .stopped,
      emitted := s.emitted ++ .tx (wirePacket s.cfg d (s.seq + 1) r.capTs32 (wireStack d)) s.cfg.dstAddr s.cfg.dstPort
        :: (if s.ports.txResult = .ok then [] else [.log .transmitFailure]) } := by
  cases ha : s.ports.txResult with
  | ok => simp [State.afterReport, transmit, ha, State.emit, State.endIteration, State.advanceSeq]
  | fail =>
    simp [State.afterReport, transmit, ha, raiseError, ErrorKind.loopAfter, State.emit, State.endIteration, State.advanceSeq]

/-- Settles O34: PROCESS and its outcome leave the state of a reporting iteration. -/
theorem consistentRecordIsReported : Obligations.ConsistentRecordIsReported := by
  intro s r hidle hs hr hl hraw hv hc d packet t
  have hd := decodeRec_loadRec s.cfg r.raw hraw
  have ht : t = s.afterReport d r := (afterReport_eq s d r).symm
  rw [ht]
  exact ⟨execProcess_report hidle hs hr hl hd hv hc, execProcessReport_report hidle hs hr hl hd hv hc⟩

/-! ### An outcome whose row does not apply (log 15) -/

/-- What an outcome on a 128-byte record finds at well-formed ports: no record, a row before its own, or a record to look into. -/
theorem presented_cases (c : Cfg) {p : Ports} (hp : p.wellFormed = true) :
    p.recIn = none ∨ (∃ r, p.recIn = some r ∧ (p.stop = true ∨ r.len ≠ recLen)) ∨
      ∃ r, p.recIn = some r ∧ p.stop = false ∧ r.len = recLen ∧
        decodeRec c (loadRec r.raw) = some (decodeFields c r.raw) := by
  cases hr : p.recIn with
  | none => exact .inl rfl
  | some r =>
    by_cases hg : p.stop = true ∨ r.len ≠ recLen
    · exact .inr (.inl ⟨r, rfl, hg⟩)
    · obtain ⟨hs, hl⟩ : p.stop = false ∧ r.len = recLen := by simpa using hg
      exact .inr (.inr ⟨r, rfl, hs, hl, decodeRec_of_presented c hp hr hl⟩)

section
variable {s : State} (h : s.runState = .idle)
include h

theorem execProcessStop_unchanged_or_selected :
    execProcessStop s = .next s ∨ SelectsOutcome s.cfg s.ports .processStop := by
  cases hs : s.ports.stop with
  | false => exact .inl (by simp [execProcessStop, whenIdle_of_idle h, hs])
  | true => exact .inr (.stop hs)

theorem execProcessSkipMalformed_unchanged_or_selected :
    execProcessSkipMalformed s = .next s ∨ SelectsOutcome s.cfg s.ports .processSkipMalformed := by
  cases hr : s.ports.recIn with
  | none => exact .inl (by simp [execProcessSkipMalformed, whenIdle_of_idle h, hr])
  | some r =>
    by_cases hg : s.ports.stop = true ∨ r.len = recLen
    · exact .inl (by simp [execProcessSkipMalformed, whenIdle_of_idle h, hr, hg])
    · obtain ⟨hs, hl⟩ : s.ports.stop = false ∧ r.len ≠ recLen := by simpa using hg
      exact .inr (.malformed hs hr hl)

variable (hp : s.ports.wellFormed = true)
include hp

theorem execProcessSkipNoint_unchanged_or_selected :
    execProcessSkipNoint s = .next s ∨ SelectsOutcome s.cfg s.ports .processSkipNoint := by
  rcases presented_cases s.cfg hp with hr | ⟨r, hr, hg⟩ | ⟨r, hr, hs, hl, hd⟩
  · exact .inl (by simp [execProcessSkipNoint, whenIdle_of_idle h, hr])
  · exact .inl (by simp [execProcessSkipNoint, whenIdle_of_idle h, hr, hg])
  · cases hv : (decodeFields s.cfg r.raw).intValid with
    | false => exact .inr (.skip hs hr hl hd hv)
    | true => exact .inl (by simp [execProcessSkipNoint, whenIdle_of_idle h, hr, hs, hl, hd, hv])

theorem execProcessReject_unchanged_or_selected :
    execProcessReject s = .next s ∨ SelectsOutcome s.cfg s.ports .processReject := by
  rcases presented_cases s.cfg hp with hr | ⟨r, hr, hg⟩ | ⟨r, hr, hs, hl, hd⟩
  · exact .inl (by simp [execProcessReject, whenIdle_of_idle h, hr])
  · exact .inl (by simp [execProcessReject, whenIdle_of_idle h, hr, hg])
  · by_cases hrow : (decodeFields s.cfg r.raw).intValid = true ∧ (decodeFields s.cfg r.raw).consistent = false
    · obtain ⟨hv, hc⟩ := hrow
      exact .inr (.reject hs hr hl hd hv hc)
    · have hn : (decodeFields s.cfg r.raw).intValid = false ∨ (decodeFields s.cfg r.raw).consistent = true := by
        simpa [imp_iff_not_or] using hrow
      exact .inl (by simp [execProcessReject, whenIdle_of_idle h, hr, hs, hl, hd, hn])

theorem execProcessReport_unchanged_or_selected :
    execProcessReport s = .next s ∨ SelectsOutcome s.cfg s.ports .processReport := by
  rcases presented_cases s.cfg hp with hr | ⟨r, hr, hg⟩ | ⟨r, hr, hs, hl, hd⟩
  · exact .inl (by simp [execProcessReport, whenIdle_of_idle h, hr])
  · exact .inl (by simp [execProcessReport, whenIdle_of_idle h, hr, hg])
  · by_cases hrow : (decodeFields s.cfg r.raw).intValid = true ∧ (decodeFields s.cfg r.raw).consistent = true
    · obtain ⟨hv, hc⟩ := hrow
      exact .inr (.report hs hr hl hd hv hc)
    · have hn : (decodeFields s.cfg r.raw).intValid = false ∨ (decodeFields s.cfg r.raw).consistent = false := by
        simpa [imp_iff_not_or] using hrow
      exact .inl (by simp [execProcessReport, whenIdle_of_idle h, hr, hs, hl, hd, hn])

/-- At well-formed ports an outcome changes nothing, or its row of R188 applies. -/
theorem outcome_unchanged_or_selected {i : Instr}
    (hi : i ∈ [Instr.processStop, .processSkipMalformed, .processSkipNoint, .processReject, .processReport]) :
    exec i s = .next s ∨ SelectsOutcome s.cfg s.ports i := by
  simp only [List.mem_cons, List.not_mem_nil, or_false] at hi
  rcases hi with rfl | rfl | rfl | rfl | rfl
  · exact execProcessStop_unchanged_or_selected h
  · exact execProcessSkipMalformed_unchanged_or_selected h
  · exact execProcessSkipNoint_unchanged_or_selected h hp
  · exact execProcessReject_unchanged_or_selected h hp
  · exact execProcessReport_unchanged_or_selected h hp

end

/-- Settles O36: were the outcome's row the one that applies, the condition word would decode to it. -/
theorem outcomesThatDoNotApplyDoNothing : Obligations.OutcomesThatDoNotApplyDoNothing := by
  intro s i hidle hp hreset hi hnot
  rcases outcome_unchanged_or_selected hidle hp hi with hsame | hsel
  · exact hsame
  · exact absurd (hsel.decodeCondition_eq hreset).symm (hnot hsel.present)

/-! ### One transition (R186, R191) -/

theorem phaseIdle_cases (s : State) :
    (phaseIdle s).runState = .stopped ∨ (phaseIdle s).runState = .decoding ∨ (phaseIdle s = s ∧ s.ports.recIn = none) := by
  unfold phaseIdle
  split
  · exact .inl rfl
  · split
    · exact .inr (.inr ⟨rfl, ‹_›⟩)
    · exact .inr (.inl rfl)

theorem phaseDecoding_runState {c : Cfg} {r : RecIn} {s t : State} (h : phaseDecoding c r s = .next t) :
    t.runState = .skip ∨ t.runState = .encoding := by
  unfold phaseDecoding at h
  split at h
  · cases h; exact .inl rfl
  · split at h
    case h_1 d _ =>
      cases h
      cases d.intValid
      · exact .inl rfl
      · exact .inr rfl
    case h_2 => cases h; exact .inl rfl
    case h_3 => cases h

theorem phaseEncoding_runState {c : Cfg} {r : RecIn} {s t : State} (h : phaseEncoding c r s = .next t) :
    t.runState = .skip ∨ t.runState = .stopped ∨ t.runState = .sending := by
  unfold phaseEncoding at h
  split at h
  case h_1 => cases h; exact .inl rfl
  case h_2 => cases h
  case h_3 =>
    dsimp only at h
    split at h
    case h_1 => cases h; exact .inr (.inr rfl)
    case h_2 => cases h; exact .inr (.inl rfl)
    case h_3 => cases h

theorem phaseSending_runState {c : Cfg} {s t : State} (h : phaseSending c s = .next t) :
    t.runState = .idle ∨ t.runState = .stopped := by
  unfold phaseSending at h
  split at h
  · cases h
    cases s.ports.txResult
    · exact .inl rfl
    · exact .inr rfl
  · cases h

/-- Settles O37: the loop states a transition can leave each state for are its rows of R191. -/
theorem phasesFollowTheTransitionTable : Obligations.PhasesFollowTheTransitionTable := by
  intro c s t h
  cases hs : s.runState with
  | idle =>
    simp only [phase, hs] at h
    cases h
    rcases phaseIdle_cases s with ht | ht | hwait
    · exact .inl (by rw [ht]; rfl)
    · exact .inl (by rw [ht]; rfl)
    · exact .inr hwait
  | decoding =>
    cases hr : s.ports.recIn with
    | none => simp only [phase, hs, hr] at h; cases h; exact .inr ⟨rfl, rfl⟩
    | some r =>
      simp only [phase, hs, hr] at h
      rcases phaseDecoding_runState h with ht | ht <;> exact .inl (by rw [ht]; rfl)
  | encoding =>
    cases hr : s.ports.recIn with
    | none => simp only [phase, hs, hr] at h; cases h; exact .inr ⟨rfl, rfl⟩
    | some r =>
      simp only [phase, hs, hr] at h
      rcases phaseEncoding_runState h with ht | ht | ht <;> exact .inl (by rw [ht]; rfl)
  | sending =>
    simp only [phase, hs] at h
    rcases phaseSending_runState h with ht | ht <;> exact .inl (by rw [ht]; rfl)
  | skip => simp only [phase, hs] at h; cases h; exact .inl rfl
  | stopped => simp only [phase, hs] at h; cases h; exact .inl (by rw [hs]; rfl)

/-! ### STOPPED and waiting (R190) -/

/-- Settles O38: only IDLE enables an operation other than RESET (R212). -/
theorem stoppedEngineChangesOnlyByReset : Obligations.StoppedEngineChangesOnlyByReset := by
  intro s i hstopped hi
  exact exec_of_not_idle (by rw [hstopped]; exact nofun) hi

/-- Ports that show nothing select no operation. -/
theorem fetch_ports_quiet {s : State} {p : Ports} {rest : List Input} (hp : s.pending = .ports p :: rest)
    (hquiet : p.present = false) : fetch s = .quiet { s with ports := p, pending := rest } := by
  simp only [fetch, hp, fetchInput, hquiet, Bool.false_eq_true, if_false]

/-- Settles O39: PROCESS finds no record, and the fetch finds no operation. -/
theorem engineWaitsForARecord : Obligations.EngineWaitsForARecord := by
  refine ⟨fun s hidle hs hr => execProcess_wait hidle hs hr, fun s hp => ?_, fun s p rest hp hreset hs hr => ?_⟩
  · exact step_of_fetch_quiet (by simp only [fetch, hp])
  · have hquiet : p.present = false := by simp [Ports.present, hreset, hs, hr]
    exact step_of_fetch_quiet (fetch_ports_quiet hp hquiet)

end Sys2Proof.Machine
end

section
/-! PROOF. What one operation emits (O46), through `exec_cases`, which says once what a next state can be. -/

namespace Sys2Proof.Machine

/-- What was emitted before is still there, followed by at most one report and at most one error kind (R188, R201). -/
def EmitsAtMostOnce (s t : State) : Prop :=
  ∃ es : List Emission, t.emitted = s.emitted ++ es ∧
    (es.filter Emission.isTx).length ≤ 1 ∧ (es.filter fun e => !e.isTx).length ≤ 1

theorem emitsAtMostOnce_of_nothing {s t : State} (h : t.emitted = s.emitted) : EmitsAtMostOnce s t :=
  ⟨[], by rw [h, List.append_nil], Nat.zero_le 1, Nat.zero_le 1⟩

theorem emitsAtMostOnce_of_log {s t : State} {k : ErrorKind} (h : t.emitted = s.emitted ++ [.log k]) : EmitsAtMostOnce s t :=
  ⟨[.log k], h, Nat.zero_le 1, Nat.le_refl 1⟩

/-- The report, and TransmitFailure where the send failed (R189). -/
theorem emitsAtMostOnce_afterReport (s : State) (d : CapturedRecord) (r : RecIn) : EmitsAtMostOnce s (s.afterReport d r) := by
  obtain ⟨es, he, rfl | rfl⟩ := afterReport_emitted s d r
  · exact ⟨_, he, Nat.le_refl 1, Nat.zero_le 1⟩
  · exact ⟨_, he, Nat.le_refl 1, Nat.le_refl 1⟩

theorem IterationResult.emitsAtMostOnce {i : Instr} {s t : State} (h : IterationResult i s t) : EmitsAtMostOnce s t := by
  cases h with
  | unchanged | stop | skip => exact emitsAtMostOnce_of_nothing rfl
  | rejected => exact emitsAtMostOnce_of_log rfl
  | reported d r => exact emitsAtMostOnce_afterReport s d r

/-- Settles O46: only an iteration reports, and every other operation raises one error kind or none. -/
theorem operationsEmitAtMostOnce : Obligations.OperationsEmitAtMostOnce := by
  intro i s t he
  cases exec_cases he with
  | iteration _ h => exact h.emitsAtMostOnce
  | unchanged | reset | stacked | decoded | counted | returned | built => exact emitsAtMostOnce_of_nothing rfl
  | rejected => exact emitsAtMostOnce_of_log rfl

end Sys2Proof.Machine
end

section
/-! PROOF. Reset and the error kinds (O41, O52): what the ports select while reset is asserted, and the table of R207. -/

namespace Sys2Proof.Machine

/-! ### Reset beside other inputs (R208) -/

/-- An asserted reset is something presented (R76). -/
theorem Ports.present_of_reset {p : Ports} (h : p.reset = true) : p.present = true := by
  rw [Ports.present, h, Bool.true_or, Bool.true_or]

/-- Reset is the first condition of the condition word, so it selects RESET beside any other input (R209). -/
theorem decodeCondition_of_reset (c : Cfg) {p : Ports} (h : p.reset = true) :
    decodeCondition (conditionWord c p) = .reset := by
  rw [conditionWord, decodeCondition_ofBool, if_pos h]

/-- Ports with reset asserted are fetched as RESET. -/
theorem fetch_ports_of_reset {s : State} {p : Ports} {rest : List Input} (hp : s.pending = .ports p :: rest)
    (h : p.reset = true) : fetch s = .run .reset { s with ports := p, pending := rest } :=
  fetch_ports hp (Ports.present_of_reset h) (by rw [decode_conditionByte, decodeCondition_of_reset s.cfg h])

/-- Settles O41: the step fetches RESET, and RESET clears the engine in whatever loop state. -/
theorem resetActsWhateverIsPresented : Obligations.ResetActsWhateverIsPresented := by
  intro s p rest hp hreset
  rw [step_of_fetch_run (fetch_ports_of_reset hp hreset)]
  exact resetClearsTheEngine _

/-! ### The error kinds (R207) -/

/-- Settles O52: each kind's code and loop state are its row of the table, whatever details it carries. -/
theorem errorKindsHaveTheirCodes : Obligations.ErrorKindsHaveTheirCodes :=
  ⟨fun _ => ⟨rfl, rfl⟩, fun _ _ => ⟨rfl, rfl⟩, rfl, rfl, rfl, rfl, rfl⟩

end Sys2Proof.Machine
end
